-- ==== Sys2Proof/Word.lean ====
section
/-! DEFINITION. The fixed-width words the spec treats as bits: request symbols and op codes. -/

namespace Sys2Proof

/-- One request symbol, SYMW = 8 bits (20_memory.md R30). -/
abbrev Symbol := BitVec 8

/-- The two-bit op field (30_encoding.md R41). -/
abbrev OpCode := BitVec 2

/-- One byte of a request laid out in bytes (log 9). -/
abbrev Byte := BitVec 8

end Sys2Proof
end

