-- ==== Sys2Proof/Syntax.lean ====
section
/-! DEFINITION. The operations of the block, one constructor per row of spec/opcode_table.json, and the
request bundle that carries them (30_encoding.md R39, R41). -/

namespace Sys2Proof

/-- The operand fields of a request (30_encoding.md R39).
`m`, `n` and `len` are the values of W-bit unsigned fields (R42); `sym` lists the NMAX symbol lanes,
lane j at index j (20_memory.md R29). -/
structure Operands where
  m : Nat
  n : Nat
  len : Nat
  sym : List Symbol
  deriving DecidableEq, Repr

/-- The operations that an op field selects (30_encoding.md R41).
Every one carries the whole bundle: a field that an operation ignores is still there (R39, R42). -/
inductive Instr where
  /-- op 00, `encode(dataBits, m, n)`, 41_encoder.md R66. -/
  | encode (x : Operands)
  /-- op 01, `decode(codeword, n)`, 42_decoder.md R73. -/
  | decode (x : Operands)
  /-- op 10, `isValid(codeword, n)`, 43_parity_checker.md R80. -/
  | isvalid (x : Operands)
  /-- op 11, reserved, answered with ILLEGAL_OP, 30_encoding.md R44. -/
  | reserved (x : Operands)
  deriving DecidableEq, Repr

/-- The operand fields an operation carries. -/
def Instr.operands : Instr → Operands
  | .encode x => x
  | .decode x => x
  | .isvalid x => x
  | .reserved x => x

/-- The request bundle (30_encoding.md R39): the operand fields and the op field as it stands. -/
structure Request extends Operands where
  op : OpCode
  deriving DecidableEq, Repr

end Sys2Proof
end

