-- ==== Sys2Proof/Config.lean ====
section
/-! DEFINITION. What is fixed when the hardware is built (00_scope.md R3) and what the spec leaves open
(70_reset_and_hazards.md R103). -/

namespace Sys2Proof

/-- The only configuration of the block (10_state.md R24): the capacity NMAX.
It is data that State carries, so that a statement over all states is a statement over all NMAX (log 1). -/
structure Config where
  /-- NMAX, the largest codeword length and the number of lanes (00_scope.md R3). -/
  nmax : Nat
  deriving DecidableEq, Repr

/-- NMAX of the reference configuration (00_scope.md section 4), which State.reset carries.
DESIGN CHOICE (log 1): the spec leaves NMAX open. Unsafe for a statement about State.reset alone. -/
def Config.reference : Config := { nmax := 16 }

/-- FREE VALUE (log 2): by how many edges beyond one the response to a request is delayed.
The arguments are NMAX, how many requests were accepted before this one, and the request, since
70_reset_and_hazards.md R103 lets an implementation make LATENCY depend on anything and vary it from
request to request. No body: no statement can rest on a particular latency. -/
opaque Config.extraLatency : Nat → Nat → Request → Nat

end Sys2Proof
end

