-- ==== Sys2Proof/Decode.lean ====
section
/-! DEFINITION. From request bits to operations and back (30_encoding.md R39 to R44): field widths,
the packing of R40, the decoder, the encoder and the byte view that the host's table asks for. -/

namespace Sys2Proof

/-- `bitlength(x)`: the number of bits of the unsigned binary form of x, 0 for 0 (00_scope.md R4). -/
def bitlength (x : Nat) : Nat := if x = 0 then 0 else Nat.log2 x + 1

/-- `W = bitlength(NMAX)`, the width of the m, n and len fields (00_scope.md R4). -/
def fieldWidth (nmax : Nat) : Nat := bitlength nmax

/-- `REQW = 2 + 3*W + 8*NMAX` (30_encoding.md R40). -/
def reqWidth (nmax : Nat) : Nat := 2 + 3 * fieldWidth nmax + 8 * nmax

/-- Symbol lane j (20_memory.md R29); a lane that the list does not hold reads 0x00 (log 10). -/
def lane (sym : List Symbol) (j : Nat) : Symbol := sym.getD j 0#8

/-- Bits `lo + len - 1` down to `lo` of v as an unsigned number (00_scope.md R8). -/
def slice {w : Nat} (v : BitVec w) (lo len : Nat) : Nat := (v.extractLsb' lo len).toNat

/-- A word of w bits that holds v in the len bits from `lo` up and 0 elsewhere. -/
def place (w lo len v : Nat) : BitVec w := (BitVec.ofNat len v).setWidth w <<< lo

/-- Where symbol lane j starts in a packed request: `3W + 2 + 8j` (30_encoding.md R40). -/
def laneOffset (nmax j : Nat) : Nat := 3 * fieldWidth nmax + 2 + 8 * j

/-- The fields of a packed request (30_encoding.md R40). -/
def unpackRequest (nmax : Nat) (v : BitVec (reqWidth nmax)) : Request :=
  { op := v.extractLsb' 0 2
    m := slice v 2 (fieldWidth nmax)
    n := slice v (fieldWidth nmax + 2) (fieldWidth nmax)
    len := slice v (2 * fieldWidth nmax + 2) (fieldWidth nmax)
    sym := (List.range nmax).map fun j => v.extractLsb' (laneOffset nmax j) 8 }

/-- The symbol lanes of a packed request, lanes `js` only (30_encoding.md R40). -/
def packLanes (nmax : Nat) (sym : List Symbol) (js : List Nat) : BitVec (reqWidth nmax) :=
  js.foldr (fun j acc => place _ (laneOffset nmax j) 8 (lane sym j).toNat ||| acc) 0

/-- The request packed into one word (30_encoding.md R40). -/
def packRequest (nmax : Nat) (r : Request) : BitVec (reqWidth nmax) :=
  place _ 0 2 r.op.toNat
    ||| place _ 2 (fieldWidth nmax) r.m
    ||| place _ (fieldWidth nmax + 2) (fieldWidth nmax) r.n
    ||| place _ (2 * fieldWidth nmax + 2) (fieldWidth nmax) r.len
    ||| packLanes nmax r.sym (List.range nmax)

/-- The operation that a request bundle selects (30_encoding.md R41, R48): total, one arm per op value. -/
def decodeRequest (r : Request) : Instr :=
  if r.op = 0b00#2 then .encode r.toOperands
  else if r.op = 0b01#2 then .decode r.toOperands
  else if r.op = 0b10#2 then .isvalid r.toOperands
  else .reserved r.toOperands

/-- The op value of an operation (30_encoding.md R41). -/
def Instr.opCode : Instr → OpCode
  | .encode _ => 0b00#2
  | .decode _ => 0b01#2
  | .isvalid _ => 0b10#2
  | .reserved _ => 0b11#2

/-- The bundle that presents an operation (30_encoding.md R39). -/
def Instr.toRequest (i : Instr) : Request :=
  { toOperands := i.operands, op := i.opCode }

/-- The decoder of packed requests: total on every word of REQW bits (30_encoding.md R48, R49). -/
def decode (nmax : Nat) (v : BitVec (reqWidth nmax)) : Instr :=
  decodeRequest (unpackRequest nmax v)

/-- The encoder: the packed request that presents an operation (30_encoding.md R40, R41). -/
def encode (nmax : Nat) (i : Instr) : BitVec (reqWidth nmax) := packRequest nmax i.toRequest

/-- Why a list of bytes is no packed request. -/
inductive DecodeError where
  /-- The request length is fixed (30_encoding.md R50), and the list has another number of bytes. -/
  | wrongByteCount
  /-- A bit above bit REQW - 1 is set: the bundle has no such bit (30_encoding.md R40). -/
  | bitAboveRequest
  deriving DecidableEq, Repr

/-- How many bytes hold REQW bits (log 9). -/
def reqBytes (nmax : Nat) : Nat := (reqWidth nmax + 7) / 8

/-- The number whose bits 8k+7 .. 8k are byte k (log 9). -/
def natOfBytes : List Byte → Nat
  | [] => 0
  | b :: bs => b.toNat + 256 * natOfBytes bs

/-- The `count` low bytes of v, least significant first (log 9). -/
def bytesOfNat : Nat → Nat → List Byte
  | 0, _ => []
  | count + 1, v => BitVec.ofNat 8 v :: bytesOfNat count (v / 256)

/-- The decoder on any list of bytes, rejecting by name what is no packed request (log 9). -/
def decodeBytes (nmax : Nat) (bs : List Byte) : Except DecodeError Instr :=
  if bs.length ≠ reqBytes nmax then .error .wrongByteCount
  else if 2 ^ reqWidth nmax ≤ natOfBytes bs then .error .bitAboveRequest
  else .ok (decode nmax (BitVec.ofNat _ (natOfBytes bs)))

/-- The bytes of an operation's packed request (log 9). -/
def encodeBytes (nmax : Nat) (i : Instr) : List Byte :=
  bytesOfNat (reqBytes nmax) (encode nmax i).toNat

/-- The operation the decoder reads from a word numbered as spec/opcode_table.json numbers it, in the
reference configuration that State.reset carries (log 1, log 9). -/
def decodeTableWord (nbits w : Nat) : Option Instr :=
  (decodeBytes Config.reference.nmax
    (bytesOfNat (reqBytes Config.reference.nmax) (w % 2 ^ nbits))).toOption

end Sys2Proof
end

