-- ==== Sys2Proof/WellFormed.lean ====
section
/-! DEFINITION. Which operations a request bundle of a block of capacity NMAX can carry
(30_encoding.md R39): every numeric field fits its W bits and there are exactly NMAX lanes. -/

namespace Sys2Proof

/-- Every numeric field fits W bits, and there is one symbol for each of the NMAX lanes. -/
def Operands.wellFormed (nmax : Nat) (x : Operands) : Bool :=
  decide (x.m < 2 ^ fieldWidth nmax)
    && decide (x.n < 2 ^ fieldWidth nmax)
    && decide (x.len < 2 ^ fieldWidth nmax)
    && decide (x.sym.length = nmax)

/-- An operation that a bundle can carry: its operand fields are (30_encoding.md R39, R42). -/
def Instr.wellFormed (nmax : Nat) (i : Instr) : Bool := i.operands.wellFormed nmax

end Sys2Proof
end

