-- ==== Sys2Proof/Machine/State.lean ====
section
/-! DEFINITION. Everything the spec gives the block: phase, request latch, response register, the latency
count, whether the first Reset has happened, the capacity; and the host's drive, which is the model's own. -/

namespace Sys2Proof.Machine

/-- The phase (10_state.md R15). -/
inductive Phase where
  /-- No request is being worked on, and no response is held since reset. -/
  | empty
  /-- A request has been accepted and its response is not yet available. -/
  | busy
  /-- The response to the last accepted request is held. -/
  | full
  deriving DecidableEq, Repr

/-- The status of a response, codes 0 to 3 in this order (30_encoding.md R46). -/
inductive Status where
  | ok
  | invalidInput
  | invalidParameters
  | illegalOp
  deriving DecidableEq, Repr

/-- The response register RESP (10_state.md R17). `len`, `r` and `syndrome` are the values of unsigned
fields of W, RRW and RMAX bits; `bits` lists the NMAX bit lanes, lane i at index i (log 7). -/
structure Response where
  status : Status
  op : OpCode
  len : Nat
  bits : List Bool
  r : Nat
  syndrome : Nat
  hadError : Bool
  uncorrectable : Bool
  isValid : Bool
  deriving DecidableEq, Repr

/-- What the host drives on the input pins at one rising edge (30_encoding.md R39,
70_reset_and_hazards.md R94). -/
structure Pins where
  rst : Bool
  reqValid : Bool
  req : Request
  deriving DecidableEq, Repr

/-- One item of the host's drive (log 3). -/
inductive HostAction where
  /-- Drive these pins for one edge, whatever the block answers. -/
  | drive (p : Pins)
  /-- A request line: present the bundle until the edge where it is accepted (30_encoding.md R52). -/
  | request (r : Request)
  /-- WAIT: go on once resp_valid = 1 (30_encoding.md R52). -/
  | wait
  /-- RESET: drive rst = 1 for one edge (30_encoding.md R52). -/
  | reset
  deriving DecidableEq, Repr

/-- Why the model stops. No operation raises any of these: an operation's errors are responses
(60_exceptions.md R81, R90). -/
inductive Fault where
  /-- A step without Reset, or a read of an output, before the first Reset, when no state element holds a
  defined value (10_state.md R26, 70_reset_and_hazards.md R96). Raised by `step` and by the reads of
  outputs. Safe (log 4). -/
  | beforeFirstReset
  /-- A read of RESP while resp_valid = 0 (70_reset_and_hazards.md R100). Raised by `State.readResponse`.
  Safe (log 5). -/
  | respNotValid
  deriving DecidableEq, Repr

/-- Why an operation has no meaning. -/
inductive Refusal where
  /-- Not modelled yet. Raised by an arm of `exec` only; no arm does. Safe. -/
  | notModelled (mnemonic : String)
  deriving DecidableEq, Repr

/-- The whole machine. -/
structure State where
  /-- NMAX, fixed when the hardware is built (00_scope.md R3, 10_state.md R24). -/
  cfg : Config
  /-- Whether the first Reset has happened; before it no other register has a defined value
  (10_state.md R26). -/
  initialised : Bool
  /-- 10_state.md R15. -/
  phase : Phase
  /-- The latency count: edges still to come up to and with the Complete edge while BUSY, else 0
  (10_state.md R22, 70_reset_and_hazards.md R103). -/
  wait : Nat
  /-- The request latch REQ (10_state.md R16). -/
  req : Request
  /-- The response register RESP (10_state.md R17). -/
  resp : Response
  /-- The model's own: what the host will drive at the coming edges (log 3). -/
  script : List HostAction
  /-- The model's own: how many requests were accepted, the index of the next free latency (log 2). -/
  draws : Nat
  deriving DecidableEq, Repr

/-- REQ after Reset: all fields 0, every symbol lane 0x00 (10_state.md R25). -/
def zeroRequest (nmax : Nat) : Request :=
  { op := 0#2, m := 0, n := 0, len := 0, sym := List.replicate nmax 0#8 }

/-- RESP after Reset: all fields 0, every bit lane 0 (10_state.md R25). -/
def zeroResponse (nmax : Nat) : Response :=
  { status := .ok, op := 0#2, len := 0, bits := List.replicate nmax false, r := 0, syndrome := 0,
    hadError := false, uncorrectable := false, isValid := false }

/-- A block of configuration `cfg` right after Reset (10_state.md R25), nothing driven by the host. -/
def State.resetOf (cfg : Config) : State :=
  { cfg := cfg
    initialised := true
    phase := .empty
    wait := 0
    req := zeroRequest cfg.nmax
    resp := zeroResponse cfg.nmax
    script := []
    draws := 0 }

/-- The machine right after Reset (10_state.md R25), in the reference configuration (log 1). -/
def State.reset : State := State.resetOf Config.reference

end Sys2Proof.Machine
end

