-- ==== Sys2Proof/Machine/Operands.lean ====
section
/-! DEFINITION. Operands: parameter derivation, parameter check, input check, symbols to bits
(40_parameters.md R53 to R59) and local codewords (00_scope.md R5 to R9, R11). -/

namespace Sys2Proof.Machine

/-- The loop of R53, at most `fuel` rounds: raise r while `2^r < n + 1`. -/
def rminLoop : Nat → Nat → Nat → Nat
  | 0, _, r => r
  | fuel + 1, n, r => if 2 ^ r < n + 1 then rminLoop fuel n (r + 1) else r

/-- `deriveParityCount(n)`, written rmin(n) (40_parameters.md R53). `n` rounds always suffice. -/
def rmin (n : Nat) : Nat := rminLoop n n 0

/-- `RMAX = deriveParityCount(NMAX)`, the width of RESP.syndrome (00_scope.md R4). -/
def rmax (nmax : Nat) : Nat := rmin nmax

/-- `RRW = bitlength(RMAX)`, the width of RESP.r (00_scope.md R4). -/
def rrw (nmax : Nat) : Nat := bitlength (rmax nmax)

/-- `validateParams(m, n)` on mathematical integers (40_parameters.md R54, 00_scope.md R10). -/
def validateParams (m n : Int) : Bool :=
  let r := n - m
  if r ≤ 0 then false else decide (2 ^ r.toNat ≥ n + 1)

/-- `consistent(m, n)`: m equals `n - rmin(n)` as integers (40_parameters.md R55). -/
def consistent (m : Int) (n : Nat) : Bool := decide (m = (n : Int) - rmin n)

/-- `fits(n)`: the codeword fits the capacity (40_parameters.md R56). -/
def fits (nmax n : Nat) : Bool := decide (n ≤ nmax)

/-- The parameter gate of ENCODE (40_parameters.md R57). -/
def paramsOkEncode (nmax m n : Nat) : Bool :=
  fits nmax n && validateParams m n && consistent m n

/-- The parameter gate of DECODE and ISVALID, with m derived from n (40_parameters.md R57). -/
def paramsOkDecode (nmax n : Nat) : Bool :=
  let m : Int := (n : Int) - rmin n
  fits nmax n && validateParams m n && consistent m n

/-- Whether a symbol is binary: 0x30 is '0' and 0x31 is '1' (20_memory.md R30, log 13). -/
def isBinary (s : Symbol) : Bool := s == 0x30#8 || s == 0x31#8

/-- `inputOK(REQ, expected)`: length, capacity, then lanes below len (40_parameters.md R58). -/
def inputOk (nmax : Nat) (x : Operands) (expected : Nat) : Bool :=
  if x.len ≠ expected then false
  else if x.len > nmax then false
  else (List.range x.len).all fun j => isBinary (lane x.sym j)

/-- `bit(s)` of a symbol that the input check has accepted (40_parameters.md R59). -/
def bitOf (s : Symbol) : Bool := s == 0x31#8

/-- The symbol that stands for a bit (20_memory.md R30): how a host writes a bit sequence into lanes. -/
def bitSymbol (b : Bool) : Symbol := if b then 0x31#8 else 0x30#8

/-- The bits of lanes 0 .. count-1 in order (00_scope.md R5, 20_memory.md R29). -/
def laneBits (x : Operands) (count : Nat) : List Bool :=
  (List.range count).map fun j => bitOf (lane x.sym j)

/-- `isPow2(p)` for p >= 1 (00_scope.md R7). -/
def isPow2 (p : Nat) : Bool := p &&& (p - 1) == 0

/-- The positions 1 .. n in increasing order (00_scope.md R6). -/
def positions (n : Nat) : List Nat := List.range' 1 n

/-- `c[pos]`: position pos of a codeword is index pos - 1 (00_scope.md R6). -/
def bitAt (c : List Bool) (pos : Nat) : Bool := c.getD (pos - 1) false

/-- `c[pos] <- b` on a local working codeword (00_scope.md R11). -/
def setBit (c : List Bool) (pos : Nat) (b : Bool) : List Bool := c.set (pos - 1) b

/-- Position pos of a codeword flipped: `c[pos] <- 1 - c[pos]` (42_decoder.md R70). -/
def flipAt (c : List Bool) (pos : Nat) : List Bool := setBit c pos (!bitAt c pos)

/-- The exclusive-or of a list of bits, 0 of none (00_scope.md R9). -/
def xorAll (bs : List Bool) : Bool := bs.foldr Bool.xor false

/-- `XOR_{pos in 1..n, (pos & p) != 0} c[pos]` (00_scope.md R8, R9), which the encoder (R64) and the
syndrome generator (R68) share. -/
def parityOver (c : List Bool) (n p : Nat) : Bool :=
  xorAll (((positions n).filter fun pos => pos &&& p != 0).map (bitAt c))

end Sys2Proof.Machine
end

