-- ==== Sys2Proof/Machine/Flags.lean ====
section
/-! DEFINITION. Flags and status: the status codes (30_encoding.md R46), the handshake outputs
(10_state.md R18) and the flags computed from a syndrome (42_decoder.md R70, 43_parity_checker.md R78). -/

namespace Sys2Proof.Machine

/-- The code of a status (30_encoding.md R46). -/
def statusCode : Status → BitVec 2
  | .ok => 0#2
  | .invalidInput => 1#2
  | .invalidParameters => 2#2
  | .illegalOp => 3#2

/-- The status with a code (30_encoding.md R46). -/
def statusOfCode (c : BitVec 2) : Status :=
  if c = 0#2 then .ok else if c = 1#2 then .invalidInput
  else if c = 2#2 then .invalidParameters else .illegalOp

/-- `req_ready = (phase != BUSY)` (10_state.md R18). -/
def reqReady (p : Phase) : Bool := p != .busy

/-- `resp_valid = (phase == FULL)` (10_state.md R18). -/
def respValid (p : Phase) : Bool := p == .full

/-- `had`: the syndrome is non-zero (42_decoder.md R70). -/
def hadErrorFlag (S : Nat) : Bool := S != 0

/-- `unc`: the syndrome is non-zero and names no position 1..n (42_decoder.md R70). -/
def uncorrectableFlag (S n : Nat) : Bool := S != 0 && !(decide (1 ≤ S) && decide (S ≤ n))

/-- `CHECK(S)`: 1 exactly when S = 0 (43_parity_checker.md R78). -/
def validFlag (S : Nat) : Bool := S == 0

end Sys2Proof.Machine
end

