-- ==== Sys2Proof/Machine/Ops.lean ====
section
/-! DEFINITION. The shared operations: Reset, Accept, Complete and the edge between them (10_state.md R20 to
R22, 70_reset_and_hazards.md R94), the response of an outcome with its zero fill (10_state.md R19,
30_encoding.md R48), the host's drive (30_encoding.md R52) and the reads of the outputs. An operation's
error is a response, not a trap: nothing is saved and nothing is vectored (60_exceptions.md R90), so there
is no exception entry and no return from one. -/

namespace Sys2Proof.Machine

/-- The result fields that an operation's `return` may name; one it does not name is 0
(00_scope.md R11, 10_state.md R19). -/
structure Result where
  len : Nat := 0
  bits : List Bool := []
  r : Nat := 0
  syndrome : Nat := 0
  hadError : Bool := false
  uncorrectable : Bool := false
  isValid : Bool := false
  deriving DecidableEq, Repr

/-- The errors an operation can raise (60_exceptions.md R81). -/
inductive ErrorKind where
  | invalidInput
  | invalidParameters
  | illegalOp
  deriving DecidableEq, Repr

/-- How an operation ends: `return` or `raise` (00_scope.md R11, 60_exceptions.md R81). -/
inductive OpOutcome where
  | success (f : Result)
  | raise (e : ErrorKind)
  deriving DecidableEq, Repr

/-- The status that an error writes (60_exceptions.md R81). -/
def errorStatus : ErrorKind → Status
  | .invalidInput => .invalidInput
  | .invalidParameters => .invalidParameters
  | .illegalOp => .illegalOp

/-- The NMAX response lanes that carry a result sequence of length `len`: lanes at or above `len` are 0
(10_state.md R19). -/
def fillLanes (nmax len : Nat) (bits : List Bool) : List Bool :=
  (List.range nmax).map fun i => decide (i < len) && bits.getD i false

/-- The response of an outcome (30_encoding.md R48, R47; 10_state.md R19): op echoed, named fields
written, every other field and lane 0; on an error status and op only. -/
def respond (nmax : Nat) (op : OpCode) : OpOutcome → Response
  | .success f =>
    { status := .ok, op := op, len := f.len, bits := fillLanes nmax f.len f.bits, r := f.r,
      syndrome := f.syndrome, hadError := f.hadError, uncorrectable := f.uncorrectable,
      isValid := f.isValid }
  | .raise e => { zeroResponse nmax with status := errorStatus e, op := op }

/-- The Complete event's writes (10_state.md R22): all of RESP at once, and phase FULL.
REQ is unchanged. -/
def State.complete (s : State) (resp : Response) : State :=
  { s with resp := resp, phase := .full, wait := 0 }

/-- A Complete whose operation ended in `o` (10_state.md R22, 30_encoding.md R48): what every operation's
meaning is made of. -/
def finish (op : OpCode) (o : OpOutcome) (s : State) : Host.Outcome State Fault Refusal :=
  .next (s.complete (respond s.cfg.nmax op o))

/-- A bundle as the pins carry it: numeric fields cut to W bits, NMAX lanes (30_encoding.md R39, log 6). -/
def fitRequest (nmax : Nat) (r : Request) : Request :=
  { op := r.op
    m := r.m % 2 ^ fieldWidth nmax
    n := r.n % 2 ^ fieldWidth nmax
    len := r.len % 2 ^ fieldWidth nmax
    sym := (List.range nmax).map (lane r.sym) }

/-- LATENCY of the request accepted after `draws` others: finite and at least 1, else open
(70_reset_and_hazards.md R103, log 2). -/
def latency (nmax draws : Nat) (r : Request) : Nat := 1 + Config.extraLatency nmax draws r

/-- The Accept event (10_state.md R20): REQ takes the bundle, phase BUSY, RESP keeps its value.
The latency count starts at this request's LATENCY. -/
def State.accept (s : State) (r : Request) : State :=
  { s with
    req := fitRequest s.cfg.nmax r
    phase := .busy
    wait := latency s.cfg.nmax s.draws (fitRequest s.cfg.nmax r)
    draws := s.draws + 1 }

/-- An edge in BUSY before the Complete edge: only the latency count moves
(10_state.md R21, 70_reset_and_hazards.md R103). -/
def State.waitEdge (s : State) : State := { s with wait := s.wait - 1 }

/-- The Reset event (70_reset_and_hazards.md R94). The capacity, the host's coming drive and the index of
the next free latency are no registers of the block and stay (log 2, log 3). -/
def State.resetEdge (s : State) : State :=
  { s with
    initialised := true
    phase := .empty
    wait := 0
    req := zeroRequest s.cfg.nmax
    resp := zeroResponse s.cfg.nmax }

/-- Pins of a host that drives nothing: rst = 0, req_valid = 0. -/
def Pins.idle (nmax : Nat) : Pins := { rst := false, reqValid := false, req := zeroRequest nmax }

/-- Pins of a RESET line: rst = 1 (30_encoding.md R52). -/
def Pins.reset (nmax : Nat) : Pins := { rst := true, reqValid := false, req := zeroRequest nmax }

/-- Pins of a request line: req_valid = 1 and the bundle (30_encoding.md R52). -/
def Pins.present (r : Request) : Pins := { rst := false, reqValid := true, req := r }

/-- What the host drives at the coming edge and what of its drive remains afterwards
(30_encoding.md R52). A request line stays until it is accepted; WAIT drives nothing until
resp_valid = 1 and then lets the next line act at once (log 14); after the last item nothing is driven
(log 3). -/
def hostEdge (nmax : Nat) (p : Phase) : List HostAction → Pins × List HostAction
  | [] => (Pins.idle nmax, [])
  | .drive pins :: rest => (pins, rest)
  | .request r :: rest => (Pins.present r, if reqReady p then rest else .request r :: rest)
  | .wait :: rest => if respValid p then hostEdge nmax p rest else (Pins.idle nmax, .wait :: rest)
  | .reset :: rest => (Pins.reset nmax, rest)

/-- The phase that the host's drive may look at: before the first Reset no output has a value, and neither
a WAIT nor a request line gets past it (10_state.md R26, 70_reset_and_hazards.md R96). -/
def State.hostPhase (s : State) : Phase := if s.initialised then s.phase else .busy

/-- The pins at the coming edge. -/
def State.pins (s : State) : Pins := (hostEdge s.cfg.nmax s.hostPhase s.script).1

/-- The state with the coming edge's share of the host's drive used up; nothing else changes. -/
def State.afterDrive (s : State) : State :=
  { s with script := (hostEdge s.cfg.nmax s.hostPhase s.script).2 }

/-- One rising edge: Reset, else (after the first Reset) Complete, Accept or nothing (10_state.md section 4).
Reset takes precedence (70_reset_and_hazards.md R95). Before the first Reset only Reset is a step
(10_state.md R26, 70_reset_and_hazards.md R96). `run` is what a Complete does with the latched operation. -/
def State.risingEdge (run : Instr → State → Host.Outcome State Fault Refusal) (s : State) :
    Host.Outcome State Fault Refusal :=
  if s.pins.rst then .next s.afterDrive.resetEdge
  else if !s.initialised then .fault .beforeFirstReset
  else
    match s.phase with
    | .busy =>
      if s.wait ≤ 1 then run (decodeRequest s.req) s.afterDrive
      else .next s.afterDrive.waitEdge
    | .empty | .full =>
      if s.pins.reqValid then .next (s.afterDrive.accept s.pins.req) else .next s.afterDrive

/-- Reading req_ready (10_state.md R18); before the first Reset a fault (70_reset_and_hazards.md R96).
A read changes no state (20_memory.md R34). -/
def State.readReqReady (s : State) : Except Fault Bool :=
  if s.initialised then .ok (reqReady s.phase) else .error .beforeFirstReset

/-- Reading resp_valid (10_state.md R18); before the first Reset a fault (70_reset_and_hazards.md R96). -/
def State.readRespValid (s : State) : Except Fault Bool :=
  if s.initialised then .ok (respValid s.phase) else .error .beforeFirstReset

/-- Reading the RESP outputs: a response only while resp_valid = 1 (70_reset_and_hazards.md R100). -/
def State.readResponse (s : State) : Except Fault Response :=
  if s.initialised then
    if respValid s.phase then .ok s.resp else .error .respNotValid
  else .error .beforeFirstReset

/-- `B = W + 4 + NMAX + RRW` (30_encoding.md R45). -/
def respBase (nmax : Nat) : Nat := fieldWidth nmax + 4 + nmax + rrw nmax

/-- `RESPW = B + RMAX + 3` (30_encoding.md R45). -/
def respWidth (nmax : Nat) : Nat := respBase nmax + rmax nmax + 3

/-- The bit lanes of a packed response, lanes `is` only (30_encoding.md R45). -/
def packBits (nmax : Nat) (bits : List Bool) (is : List Nat) : BitVec (respWidth nmax) :=
  is.foldr (fun i acc => place _ (fieldWidth nmax + 4 + i) 1 (bits.getD i false).toNat ||| acc) 0

/-- The response packed into one word (30_encoding.md R45). -/
def packResponse (nmax : Nat) (p : Response) : BitVec (respWidth nmax) :=
  place _ 0 2 (statusCode p.status).toNat
    ||| place _ 2 2 p.op.toNat
    ||| place _ 4 (fieldWidth nmax) p.len
    ||| packBits nmax p.bits (List.range nmax)
    ||| place _ (fieldWidth nmax + 4 + nmax) (rrw nmax) p.r
    ||| place _ (respBase nmax) (rmax nmax) p.syndrome
    ||| place _ (respBase nmax + rmax nmax) 1 p.hadError.toNat
    ||| place _ (respBase nmax + rmax nmax + 1) 1 p.uncorrectable.toNat
    ||| place _ (respBase nmax + rmax nmax + 2) 1 p.isValid.toNat

/-- The fields of a packed response (30_encoding.md R45). -/
def unpackResponse (nmax : Nat) (v : BitVec (respWidth nmax)) : Response :=
  { status := statusOfCode (v.extractLsb' 0 2)
    op := v.extractLsb' 2 2
    len := slice v 4 (fieldWidth nmax)
    bits := (List.range nmax).map fun i => v.getLsbD (fieldWidth nmax + 4 + i)
    r := slice v (fieldWidth nmax + 4 + nmax) (rrw nmax)
    syndrome := slice v (respBase nmax) (rmax nmax)
    hadError := v.getLsbD (respBase nmax + rmax nmax)
    uncorrectable := v.getLsbD (respBase nmax + rmax nmax + 1)
    isValid := v.getLsbD (respBase nmax + rmax nmax + 2) }

/-- A block in which the request packed as `v` has been accepted and completes at the coming edge, the host
driving nothing there: what `withFetchWord` makes (log 8). -/
def State.withLatched (s : State) (v : BitVec (reqWidth s.cfg.nmax)) : State :=
  { s with
    initialised := true
    phase := .busy
    wait := 1
    req := unpackRequest s.cfg.nmax v
    script := .drive (Pins.idle s.cfg.nmax) :: s.script }

end Sys2Proof.Machine
end

