-- ==== Sys2Proof/Machine/SyndromeGenerator.lean ====
section
/-! DEFINITION. hamming_syndrome_generator, shared by DECODE and ISVALID (42_decoder.md R68). -/

namespace Sys2Proof.Machine

/-- One round of R68: set bit k of S when the parity over the positions with bit k set is 1. -/
def syndromeRound (c : List Bool) (n S k : Nat) : Nat :=
  if parityOver c n (2 ^ k) then S ||| 2 ^ k else S

/-- `SYND(c, n, r)` (R68). -/
def syndrome (c : List Bool) (n r : Nat) : Nat := (List.range r).foldl (syndromeRound c n) 0

end Sys2Proof.Machine
end

