-- ==== Sys2Proof/Machine/ErrorCorrector.lean ====
section
/-! DEFINITION. error_corrector (42_decoder.md R70). -/

namespace Sys2Proof.Machine

/-- What the corrector returns: the working codeword and the two flags (R70). -/
structure Correction where
  word : List Bool
  hadError : Bool
  uncorrectable : Bool
  deriving DecidableEq, Repr

/-- The working codeword: position S flipped when S names a position 1..n, else as received (R70). -/
def correctedWord (c : List Bool) (n S : Nat) : List Bool :=
  if 1 ≤ S ∧ S ≤ n then flipAt c S else c

/-- `CORRECT(c, n, S)` (R70). -/
def correct (c : List Bool) (n S : Nat) : Correction :=
  { word := correctedWord c n S
    hadError := hadErrorFlag S
    uncorrectable := uncorrectableFlag S n }

end Sys2Proof.Machine
end

