-- ==== Sys2Proof/Machine/HammingDecoder.lean ====
section
/-! DEFINITION. hamming_decoder: the data extractor and DECODE (42_decoder.md R71, R73). -/

namespace Sys2Proof.Machine

/-- The data bits of w, whose first bit stands at position `pos` (R71). -/
def extractFrom : List Bool → Nat → List Bool
  | [], _ => []
  | b :: w, pos => if isPow2 pos then extractFrom w (pos + 1) else b :: extractFrom w (pos + 1)

/-- `EXTRACT(w, n)`: the bits at the data positions of 1..n in increasing order (R71). -/
def extract (w : List Bool) (n : Nat) : List Bool := extractFrom (w.take n) 1

/-- hamming_decoder after the checks: the result fields for a received codeword c (R73). -/
def hammingDecoder (c : List Bool) (n : Nat) : Result :=
  let r := rmin n
  let S := syndrome c n r
  let k := correct c n S
  { len := n - r
    bits := extract k.word n
    r := r
    syndrome := S
    hadError := k.hadError
    uncorrectable := k.uncorrectable }

/-- `DECODE(REQ)` (R73); REQ.m is ignored (30_encoding.md R42). -/
def decodeOutcome (nmax : Nat) (x : Operands) : OpOutcome :=
  if !inputOk nmax x x.n then .raise .invalidInput
  else if !paramsOkDecode nmax x.n then .raise .invalidParameters
  else .success (hammingDecoder (laneBits x x.n) x.n)

/-- DECODE, op 01 (R73): Complete with the decoded word or the error. -/
def execDecode (x : Operands) (s : State) : Host.Outcome State Fault Refusal :=
  finish 0b01#2 (decodeOutcome s.cfg.nmax x) s

end Sys2Proof.Machine
end

