-- ==== Sys2Proof/Machine/HammingEncoder.lean ====
section
/-! DEFINITION. hamming_encoder and ENCODE (41_encoder.md R63 to R66). -/

namespace Sys2Proof.Machine

/-- Steps 1 and 2 from position `pos` on, for `count` positions (R63): a parity position keeps 0, a data
position takes the next unused data bit. -/
def interleaveFrom : List Bool → Nat → Nat → List Bool
  | _, _, 0 => []
  | d, pos, count + 1 =>
    if isPow2 pos then false :: interleaveFrom d (pos + 1) count
    else d.headD false :: interleaveFrom d.tail (pos + 1) count

/-- Steps 1 and 2: the n positions with the data bits in order and 0 at the parity positions (R63). -/
def interleave (d : List Bool) (n : Nat) : List Bool := interleaveFrom d 1 n

/-- One round of step 3: position `2^k` takes the parity over the current bits (R64). -/
def parityRound (n : Nat) (c : List Bool) (k : Nat) : List Bool :=
  setBit c (2 ^ k) (parityOver c n (2 ^ k))

/-- Step 3: rounds k = 0 .. r-1 in increasing order (R64). -/
def addParity (c : List Bool) (n r : Nat) : List Bool := (List.range r).foldl (parityRound n) c

/-- hamming_encoder (00_scope.md R2): the codeword of the data word d. -/
def hammingEncoder (d : List Bool) (n r : Nat) : List Bool := addParity (interleave d n) n r

/-- `ENCODE(REQ)` (R66). -/
def encodeOutcome (nmax : Nat) (x : Operands) : OpOutcome :=
  if !inputOk nmax x x.m then .raise .invalidInput
  else if !paramsOkEncode nmax x.m x.n then .raise .invalidParameters
  else .success { len := x.n, bits := hammingEncoder (laneBits x x.m) x.n (x.n - x.m) }

/-- ENCODE, op 00 (R66): Complete with the codeword or the error. -/
def execEncode (x : Operands) (s : State) : Host.Outcome State Fault Refusal :=
  finish 0b00#2 (encodeOutcome s.cfg.nmax x) s

end Sys2Proof.Machine
end

