-- ==== Sys2Proof/Machine/ParityChecker.lean ====
section
/-! DEFINITION. parity_checker and ISVALID (43_parity_checker.md R78, R80). -/

namespace Sys2Proof.Machine

/-- parity_checker after the checks: the result fields for a received codeword c (R78, R80). -/
def parityChecker (c : List Bool) (n : Nat) : Result :=
  let S := syndrome c n (rmin n)
  { isValid := validFlag S, syndrome := S }

/-- `ISVALID(REQ)` (R80); REQ.m is ignored (30_encoding.md R42). -/
def isvalidOutcome (nmax : Nat) (x : Operands) : OpOutcome :=
  if !inputOk nmax x x.n then .raise .invalidInput
  else if !paramsOkDecode nmax x.n then .raise .invalidParameters
  else .success (parityChecker (laneBits x x.n) x.n)

/-- ISVALID, op 10 (R80): Complete with the check's result or the error. -/
def execIsvalid (x : Operands) (s : State) : Host.Outcome State Fault Refusal :=
  finish 0b10#2 (isvalidOutcome s.cfg.nmax x) s

end Sys2Proof.Machine
end

