-- ==== Sys2Proof/Machine/ReservedOp.lean ====
section
/-! DEFINITION. The reserved op value 3 (30_encoding.md R44, 60_exceptions.md R84). -/

namespace Sys2Proof.Machine

/-- Reserved, op 11 (R44, R84): Complete with ILLEGAL_OP, no other field examined. -/
def execReserved (_x : Operands) (s : State) : Host.Outcome State Fault Refusal :=
  finish 0b11#2 (.raise .illegalOp) s

end Sys2Proof.Machine
end

