-- ==== Sys2Proof/Machine/Dispatch.lean ====
section
/-! DEFINITION. The dispatch of a Complete: one arm per operation (30_encoding.md R48). -/

namespace Sys2Proof.Machine

/-- The Complete of operation i (10_state.md R22, 30_encoding.md R48). -/
def exec (i : Instr) (s : State) : Host.Outcome State Fault Refusal :=
  match i with
  | .encode x => Sys2Proof.Machine.execEncode x s
  | .decode x => Sys2Proof.Machine.execDecode x s
  | .isvalid x => Sys2Proof.Machine.execIsvalid x s
  | .reserved x => Sys2Proof.Machine.execReserved x s

end Sys2Proof.Machine
end

