-- ==== Sys2Proof/Machine/Step.lean ====
section
/-! DEFINITION. One rising edge of clk (10_state.md section 4), and the state in which the next edge runs a
given request. -/

namespace Sys2Proof.Machine

/-- One rising edge (10_state.md section 4): `risingEdge`, whose Complete runs `exec`. -/
def step (s : State) : Host.Outcome State Fault Refusal := s.risingEdge exec

/-- s with the request of packed bits w accepted, so that the very next step is its Complete (log 8).
Bits of w at or above nbits are 0. -/
def State.withFetchWord (s : State) (nbits w : Nat) : State :=
  s.withLatched (BitVec.ofNat _ (w % 2 ^ nbits))

end Sys2Proof.Machine
end

