-- ==== Sys2Proof/Machine/HostProgram.lean ====
section
/-! DEFINITION. The request notation and the lines of a host program (30_encoding.md R51, R52), as what the
host drives. The notation has no effect on any operation (92_eei_decisions.md D20). -/

namespace Sys2Proof.Machine

/-- The value of a hexadecimal digit, for the escape `\xHH` (R51). -/
def hexDigit (ch : Char) : Option Nat :=
  let v := ch.toNat
  if 48 ≤ v ∧ v ≤ 57 then some (v - 48)
  else if 65 ≤ v ∧ v ≤ 70 then some (v - 55)
  else if 97 ≤ v ∧ v ≤ 102 then some (v - 87)
  else none

/-- A byte from two hexadecimal digits, the first the high one (R51). -/
def hexByte (hi lo : Char) : Option Symbol :=
  match hexDigit hi, hexDigit lo with
  | some a, some b => some (BitVec.ofNat 8 (16 * a + b))
  | _, _ => none

/-- The 8-bit code of a character (R51, log 15). -/
def charCode (ch : Char) : Symbol := BitVec.ofNat 8 ch.toNat

/-- The symbols of a string: character k is written as its 8-bit code, and `\xHH` stands for the code 0xHH
(R51). A backslash that starts no such escape is a character like any other (log 15). -/
def symbolsOf : List Char → List Symbol
  | '\\' :: 'x' :: hi :: lo :: rest =>
    match hexByte hi lo with
    | some b => b :: symbolsOf rest
    | none => charCode '\\' :: symbolsOf ('x' :: hi :: lo :: rest)
  | ch :: rest => charCode ch :: symbolsOf rest
  | [] => []

/-- A line of a host program (R51, R52). -/
inductive HostLine where
  /-- `ENCODE <m>, <n>, "<string>"` -/
  | encode (m n : Nat) (str : List Char)
  /-- `DECODE <n>, "<string>"`; writes m = 0 -/
  | decode (n : Nat) (str : List Char)
  /-- `ISVALID <n>, "<string>"`; writes m = 0 -/
  | isvalid (n : Nat) (str : List Char)
  /-- `.req op=<0..3>, m=<int>, n=<int>, len=<int>, "<string>"` -/
  | req (op m n len : Nat) (str : List Char)
  | wait
  | reset
  /-- `EXPECT ...` documents the program and is no action. -/
  | expect (text : List Char)
  deriving DecidableEq, Repr

/-- The symbol lanes of a string: lane k its symbol k, a lane the string does not write 0x00 (R51). -/
def lanesOf (nmax : Nat) (str : List Char) : List Symbol :=
  (List.range nmax).map (lane (symbolsOf str))

/-- The bundle of a request line whose len is the number of the string's characters (R51). -/
def lineRequest (nmax : Nat) (op : OpCode) (m n : Nat) (str : List Char) : Request :=
  { op := op, m := m, n := n, len := (symbolsOf str).length, sym := lanesOf nmax str }

/-- What a line has the host do (R52); EXPECT nothing. -/
def HostLine.action (nmax : Nat) : HostLine → Option HostAction
  | .encode m n str => some (.request (lineRequest nmax 0b00#2 m n str))
  | .decode n str => some (.request (lineRequest nmax 0b01#2 0 n str))
  | .isvalid n str => some (.request (lineRequest nmax 0b10#2 0 n str))
  | .req op m n len str =>
    some (.request { op := BitVec.ofNat 2 op, m := m, n := n, len := len, sym := lanesOf nmax str })
  | .wait => some .wait
  | .reset => some .reset
  | .expect _ => none

/-- The host's drive for a program: its lines in order (R52). -/
def hostScript (nmax : Nat) (prog : List HostLine) : List HostAction :=
  prog.filterMap (HostLine.action nmax)

/-- A block whose host will run `prog` from here (R52). -/
def State.withProgram (s : State) (prog : List HostLine) : State :=
  { s with script := hostScript s.cfg.nmax prog }

end Sys2Proof.Machine
end

