-- ==== Sys2Proof/Machine/Respond.lean ====
section
/-! DEFINITION. `RESPOND(REQ)` as one function of the request and NMAX (30_encoding.md R48), the term in which
statements speak of what a Complete writes. -/

namespace Sys2Proof.Machine

/-- How an operation ends: the four arms of R48. -/
def outcomeOf (nmax : Nat) : Instr → OpOutcome
  | .encode x => encodeOutcome nmax x
  | .decode x => decodeOutcome nmax x
  | .isvalid x => isvalidOutcome nmax x
  | .reserved _ => .raise .illegalOp

/-- The response to an operation (R48). -/
def respondTo (nmax : Nat) (i : Instr) : Response := respond nmax i.opCode (outcomeOf nmax i)

end Sys2Proof.Machine
end

