-- ==== Sys2Proof/Safety.lean ====
section
/-! DEFINITION. The terms that claims use: when a request is good, which bits its lanes carry, which event an edge is, how errors in a
received word are described, and the invariant of every state a block can be in. -/

namespace Sys2Proof.Machine

/-- The input check passes (40_parameters.md R58): length as expected, within the capacity, binary lanes. -/
abbrev InputGood (nmax : Nat) (x : Operands) (expected : Nat) : Prop :=
  x.len = expected ∧ x.len ≤ nmax ∧ ∀ j, j < x.len → lane x.sym j = 0x30#8 ∨ lane x.sym j = 0x31#8

/-- None of ENCODE's parameter failures applies (60_exceptions.md R83). -/
abbrev EncodeParamsGood (nmax m n : Nat) : Prop :=
  n ≤ nmax ∧ m < n ∧ n + 1 ≤ 2 ^ (n - m) ∧ m + rmin n = n

/-- None of the parameter failures of DECODE and ISVALID applies (42_decoder.md R73). -/
abbrev DecodeParamsGood (nmax n : Nat) : Prop := 1 ≤ n ∧ n ≤ nmax

/-- A bundle of W-bit fields and NMAX lanes (30_encoding.md R39). -/
abbrev RequestFits (nmax : Nat) (r : Request) : Prop :=
  r.m < 2 ^ fieldWidth nmax ∧ r.n < 2 ^ fieldWidth nmax ∧ r.len < 2 ^ fieldWidth nmax
    ∧ r.sym.length = nmax

/-- The RESP fields fit their widths (10_state.md R17). -/
abbrev ResponseFits (nmax : Nat) (p : Response) : Prop :=
  p.len < 2 ^ fieldWidth nmax ∧ p.bits.length = nmax ∧ p.r < 2 ^ rrw nmax
    ∧ p.syndrome < 2 ^ rmax nmax

/-- The RESP fields of a decoded word are coherent (10_state.md R19, R23; 30_encoding.md R47):
lanes at or above len are 0, an uncorrectable word is an erroneous one, only DECODE reports errors and only
ISVALID reports validity. -/
abbrev ResponseCoherent (nmax : Nat) (p : Response) : Prop :=
  (∀ i, i < nmax → p.len ≤ i → p.bits.getD i false = false)
    ∧ (p.uncorrectable = true → p.hadError = true)
    ∧ (p.hadError = true ↔ p.status = .ok ∧ p.op = 0b01#2 ∧ p.syndrome ≠ 0)
    ∧ (p.isValid = true ↔ p.status = .ok ∧ p.op = 0b10#2 ∧ p.syndrome = 0)
    ∧ (p.status = .illegalOp ↔ p.op = 0b11#2)

/-- `ch` is a hexadecimal digit of value v, in either case (30_encoding.md R51, log 15). -/
abbrev HexValue (ch : Char) (v : Nat) : Prop :=
  v < 16
    ∧ (ch = ['0', '1', '2', '3', '4', '5', '6', '7', '8', '9', 'a', 'b', 'c', 'd', 'e', 'f'].getD v '0'
      ∨ ch = ['0', '1', '2', '3', '4', '5', '6', '7', '8', '9', 'A', 'B', 'C', 'D', 'E', 'F'].getD v '0')

/-- The bits that lanes 0 .. k-1 carry, lane j at sequence index j: 0x31 is 1 and every other code that the
input check accepts is 0 (40_parameters.md R59, 20_memory.md R29, R30). -/
abbrev CarriesLanes (x : Operands) (k : Nat) (c : List Bool) : Prop :=
  c.length = k ∧ ∀ j, j < k → c.getD j false = decide (lane x.sym j = 0x31#8)

/-- The edge is a Reset (70_reset_and_hazards.md R94). -/
abbrev State.Resets (s : State) : Prop := s.pins.rst = true

/-- The edge is an Accept (10_state.md R20). -/
abbrev State.Accepts (s : State) : Prop :=
  s.initialised = true ∧ s.pins.rst = false ∧ s.phase ≠ .busy ∧ s.pins.reqValid = true

/-- The edge is a Complete (10_state.md R22). -/
abbrev State.Completes (s : State) : Prop :=
  s.initialised = true ∧ s.pins.rst = false ∧ s.phase = .busy ∧ s.wait ≤ 1

/-- `k` rising edges, stopping at the first fault. -/
def edges : Nat → State → Host.Outcome State Fault Refusal
  | 0, s => .next s
  | k + 1, s =>
    match step s with
    | .next t => edges k t
    | .fault f => .fault f
    | .refused r => .refused r

/-- A received word that differs from c in the positions of E (42_decoder.md R69, R76). -/
def flipAll (c : List Bool) (E : List Nat) : List Bool := E.foldl flipAt c

/-- The bitwise exclusive-or of a list of positions, 0 of none (42_decoder.md R69). -/
def xorPositions (E : List Nat) : Nat := E.foldr Nat.xor 0

/-- What every state of a block that has been reset satisfies. -/
structure State.Coherent (s : State) : Prop where
  /-- Every REQ field fits its width (10_state.md R16). -/
  reqFits : RequestFits s.cfg.nmax s.req
  /-- Every RESP field fits its width (10_state.md R17). -/
  respFits : ResponseFits s.cfg.nmax s.resp
  /-- 10_state.md R19, R23. -/
  respCoherent : ResponseCoherent s.cfg.nmax s.resp
  /-- A request in progress has at least one edge to come (70_reset_and_hazards.md R103). -/
  waitBusy : s.phase = .busy → 1 ≤ s.wait
  /-- No request in progress, nothing to wait for. -/
  waitIdle : s.phase ≠ .busy → s.wait = 0
  /-- While EMPTY the registers hold their reset zeros (70_reset_and_hazards.md R100). -/
  emptyZero : s.phase = .empty → s.req = zeroRequest s.cfg.nmax ∧ s.resp = zeroResponse s.cfg.nmax
  /-- While FULL the response is the one to the latched request (10_state.md R15, R22, R27). -/
  fullAnswers : s.phase = .full → s.resp = respondTo s.cfg.nmax (decodeRequest s.req)

/-- The invariant: NMAX is at least 1 (00_scope.md R3), and after the first Reset the registers are
coherent. Before it they hold no defined value (10_state.md R26). -/
structure State.Inv (s : State) : Prop where
  nmaxPos : 1 ≤ s.cfg.nmax
  coherent : s.initialised = true → s.Coherent

end Sys2Proof.Machine
end

