-- ==== Sys2Proof/Certificates/Slice0/Obligations.lean ====
section
/-! DEFINITION. The statements for the provers. Each docstring says which rule of spec/ it formalises; a
statement that rests on a rule the spec itself derives, or on a choice of the model, says so. The fields
`wait` and `draws` (log 2, log 11), `script` (log 3) and `initialised` (log 4) are the model's own: where a
statement names one of them beside a rule, that clause is the model's choice. -/

open Sys2Proof Sys2Proof.Machine

/-! ### Reset and power-on -/

/-- 10_state.md R25: every register right after Reset, for every capacity, and the two handshake outputs. -/
def Obligations.ResetStateHoldsTheSpecifiedValues : Prop :=
  ∀ cfg : Config, ∀ s, s = State.resetOf cfg →
    s.initialised = true ∧ s.phase = .empty
      ∧ s.req.op = 0#2 ∧ s.req.m = 0 ∧ s.req.n = 0 ∧ s.req.len = 0
      ∧ s.req.sym.length = cfg.nmax ∧ (∀ j, j < cfg.nmax → lane s.req.sym j = 0x00#8)
      ∧ statusCode s.resp.status = 0#2 ∧ s.resp.op = 0#2 ∧ s.resp.len = 0
      ∧ s.resp.bits.length = cfg.nmax ∧ (∀ i, i < cfg.nmax → s.resp.bits.getD i false = false)
      ∧ s.resp.r = 0 ∧ s.resp.syndrome = 0
      ∧ s.resp.hadError = false ∧ s.resp.uncorrectable = false ∧ s.resp.isValid = false
      ∧ s.readReqReady = .ok true ∧ s.readRespValid = .ok false

/-- 70_reset_and_hazards.md R94: an edge with rst = 1, in whatever state (before the first Reset too),
makes exactly the reset values; the outputs are those of R25. -/
def Obligations.ResetEdgeClearsTheBlock : Prop :=
  ∀ s : State, s.pins.rst = true →
    ∃ t, step s = .next t
      ∧ t = { s with
                initialised := true, phase := .empty, wait := 0,
                req := { op := 0#2, m := 0, n := 0, len := 0, sym := List.replicate s.cfg.nmax 0x00#8 },
                resp := { status := .ok, op := 0#2, len := 0, bits := List.replicate s.cfg.nmax false,
                          r := 0, syndrome := 0, hadError := false, uncorrectable := false,
                          isValid := false },
                script := t.script }
      ∧ t.readReqReady = .ok true ∧ t.readRespValid = .ok false

/-- 70_reset_and_hazards.md R95: with rst = 1 driven, whatever the phase, the latched request, the response,
the latency count and the other pins are, the edge leads to one and the same state, in which no request is
in progress and no response is held; so nothing is accepted or completed and nothing of the dropped request
or the lost response is left. Further edges with rst = 1 change no register again. -/
def Obligations.ResetTakesPrecedenceAndDropsEverything : Prop :=
  ∀ (s : State) (ph : Phase) (k : Nat) (q : Request) (p : Response) (b : Bool) (pins pins' : Pins)
      (rest : List HostAction),
    pins.rst = true → pins'.rst = true →
      ∃ t, step { s with script := .drive pins :: rest } = .next t
        ∧ step { s with phase := ph, wait := k, req := q, resp := p, initialised := b,
                        script := .drive pins' :: rest } = .next t
        ∧ t.phase = .empty ∧ t.resp = zeroResponse s.cfg.nmax ∧ t.draws = s.draws
        ∧ step { t with script := .drive pins :: rest } = .next t

/-- 70_reset_and_hazards.md R96: before the first Reset an edge that is a next state is a Reset (so neither an
Accept nor a Complete is reached), and every read of an output is a fault. -/
def Obligations.NothingBeforeTheFirstReset : Prop :=
  ∀ s : State, s.initialised = false →
    (∀ t, step s = .next t →
        s.Resets ∧ t.phase = .empty ∧ t.draws = s.draws ∧ t.resp = zeroResponse s.cfg.nmax)
      ∧ s.readReqReady = .error .beforeFirstReset
      ∧ s.readRespValid = .error .beforeFirstReset
      ∧ s.readResponse = .error .beforeFirstReset

/-- The model's reading of 10_state.md R26 (log 4, DEDUCED): every edge without rst before the first Reset
faults, and `step` faults nowhere else. -/
def Obligations.StepFaultsExactlyBeforeTheFirstReset : Prop :=
  ∀ s : State, (∃ f, step s = .fault f) ↔ (s.initialised = false ∧ s.pins.rst = false)

/-! ### The handshake and the three events -/

/-- 10_state.md R18: the two handshake outputs are functions of the phase, and change only with it. -/
def Obligations.HandshakeOutputsFollowThePhase : Prop :=
  ∀ s : State, s.initialised = true →
    s.readReqReady = .ok (decide (s.phase ≠ .busy))
      ∧ s.readRespValid = .ok (decide (s.phase = .full))
      ∧ ∀ t : State, t.initialised = true → t.phase = s.phase →
          t.readReqReady = s.readReqReady ∧ t.readRespValid = s.readRespValid

/-- 70_reset_and_hazards.md R100: RESP reads as a response only while resp_valid = 1 and any other read
faults; while BUSY the register still holds what it held before, and while EMPTY the reset zeros. -/
def Obligations.ResponseReadableOnlyWhileFull : Prop :=
  ∀ s : State, s.initialised = true →
    (s.phase = .full → s.readResponse = .ok s.resp)
      ∧ (s.phase ≠ .full → s.readResponse = .error .respNotValid)
      ∧ (∀ t, step s = .next t → t.phase = .busy → t.resp = s.resp)
      ∧ (s.Inv → s.phase = .empty → s.resp = zeroResponse s.cfg.nmax)

/-- 10_state.md R20: an Accept latches the presented bundle field by field, whatever its values, makes the
phase BUSY and leaves RESP; resp_valid falls. The latency count starts at some number of edges, at least 1. -/
def Obligations.AcceptLatchesTheRequest : Prop :=
  ∀ s : State, s.Accepts → RequestFits s.cfg.nmax s.pins.req →
    ∃ L, 1 ≤ L ∧ ∃ t, step s = .next t
      ∧ t = { s with req := s.pins.req, phase := .busy, wait := L, draws := s.draws + 1,
                     script := t.script }
      ∧ t.readRespValid = .ok false ∧ t.readReqReady = .ok false

/-- 10_state.md R21: at an edge in BUSY the request inputs are not sampled: any two sets of pins without rst
lead to the same state, REQ is unchanged and no Accept is counted; a presented request line is kept by the
host and is still presented at the next edge. -/
def Obligations.BusyTakesNoRequest : Prop :=
  ∀ (s : State) (pins pins' : Pins) (rest : List HostAction),
    s.initialised = true → s.phase = .busy → pins.rst = false → pins'.rst = false →
      ∃ t, step { s with script := .drive pins :: rest } = .next t
        ∧ step { s with script := .drive pins' :: rest } = .next t
        ∧ t.req = s.req ∧ t.draws = s.draws
        ∧ ∀ r, step { s with script := .request r :: rest }
            = .next { t with script := .request r :: rest }

/-- 10_state.md R22: a Complete writes the response to the latched request into RESP at one edge, makes the
phase FULL and changes nothing else of the block. -/
def Obligations.CompleteWritesTheWholeResponse : Prop :=
  ∀ s : State, s.Completes →
    ∃ t, step s = .next t
      ∧ t = { s with resp := respondTo s.cfg.nmax (decodeRequest s.req), phase := .full, wait := 0,
                     script := t.script }
      ∧ t.readResponse = .ok (respondTo s.cfg.nmax (decodeRequest s.req))

/-- At the Complete edge of a latched packed request the step is `exec` of the operation the decoder reads
from its bits; what the step adds is that the host's item for this edge is used up. -/
def Obligations.StepRunsTheDecodedOperation : Prop :=
  (∀ (s : State) (v : BitVec (reqWidth s.cfg.nmax)),
      step (s.withLatched v)
        = exec (decode s.cfg.nmax v) { s.withLatched v with script := s.script })
    ∧ ∀ s : State, s.Completes → step s = exec (decodeRequest s.req) s.afterDrive

/-- 10_state.md section 4: an edge that is neither Reset, Accept nor Complete changes no register: in BUSY only
the latency count falls by one, else nothing but the host's drive moves. -/
def Obligations.IdleEdgeChangesNoRegister : Prop :=
  ∀ s : State, s.initialised = true → ¬ s.Resets → ¬ s.Accepts → ¬ s.Completes →
    ∃ t, step s = .next t
      ∧ t = { s with wait := if s.phase = .busy then s.wait - 1 else s.wait, script := t.script }

/-- 70_reset_and_hazards.md R101: a held response stays until the next Accept or Reset; at an Accept resp_valid
falls (RESP itself stays until the next Complete, which overwrites it), and Reset loses it. -/
def Obligations.ResponseHeldUntilAcceptOrReset : Prop :=
  ∀ s t : State, s.initialised = true → s.phase = .full → step s = .next t →
    (¬ s.Resets → ¬ s.Accepts →
        t.phase = .full ∧ t.resp = s.resp ∧ t.readResponse = s.readResponse)
      ∧ (s.Accepts → t.phase = .busy ∧ t.resp = s.resp ∧ t.readRespValid = .ok false)
      ∧ (s.Resets → t.phase = .empty ∧ t.readRespValid = .ok false)
      ∧ ∀ u v : State, u.Completes → step u = .next v →
          v.resp = respondTo u.cfg.nmax (decodeRequest u.req)

/-- 10_state.md section 4 (a rule about the whole machine): RESP changes only at a Complete or a Reset, REQ only
at an Accept or a Reset, and NMAX never. -/
def Obligations.EveryRegisterHasItsWriters : Prop :=
  ∀ s t : State, step s = .next t →
    (t.resp ≠ s.resp → s.Completes ∨ s.Resets)
      ∧ (t.req ≠ s.req → s.Accepts ∨ s.Resets)
      ∧ (t.draws ≠ s.draws → s.Accepts)
      ∧ t.cfg = s.cfg

/-- 10_state.md section 4 (a rule about the whole machine): the phase moves only EMPTY or FULL to BUSY by Accept,
BUSY to FULL by Complete, and anything to EMPTY by Reset. -/
def Obligations.PhaseMovesOnlyByTheThreeEvents : Prop :=
  ∀ s t : State, step s = .next t →
    (s.Resets ∧ t.phase = .empty)
      ∨ (s.Accepts ∧ s.phase ≠ .busy ∧ t.phase = .busy)
      ∨ (s.Completes ∧ s.phase = .busy ∧ t.phase = .full)
      ∨ (s.initialised = true ∧ ¬ s.Resets ∧ ¬ s.Accepts ∧ ¬ s.Completes ∧ t.phase = s.phase)

/-- 70_reset_and_hazards.md R103 with R98 and R21: after the Accept edge, whatever the host drives without rst
(changed inputs and further requests included), the block stays BUSY with the old RESP for some latency of
at least one edge, and the edge that ends it makes the phase FULL with the response to the accepted request.
The latency is the model's free value (log 2): nothing says which number it is. -/
def Obligations.AcceptedRequestIsAnsweredAfterItsLatency : Prop :=
  ∀ (s : State) (r : Request) (rest : List HostAction),
    s.initialised = true → s.phase ≠ .busy → RequestFits s.cfg.nmax r →
      ∃ L, 1 ≤ L ∧ ∀ ps : List Pins, ps.length = L → (∀ p ∈ ps, p.rst = false) →
        (∀ j, j < L → ∃ u,
            edges (1 + j) { s with script := .request r :: (ps.map HostAction.drive ++ rest) } = .next u
              ∧ u.phase = .busy ∧ u.resp = s.resp ∧ u.req = r)
          ∧ edges (1 + L) { s with script := .request r :: (ps.map HostAction.drive ++ rest) }
              = .next { s with req := r, resp := respondTo s.cfg.nmax (decodeRequest r), phase := .full,
                               wait := 0, draws := s.draws + 1, script := rest }

/-- 30_encoding.md R52: a request line presents its bundle with req_valid = 1 until the edge where it is accepted
and is then dropped; WAIT drives nothing until resp_valid = 1 and then lets the next line act; RESET drives
rst = 1 for one edge; EXPECT is no action; the lines run in order. The program lines WAIT and RESET are the
host's items of those names, and a program's items are those of its lines. -/
def Obligations.HostLinesDriveThePinsInOrder : Prop :=
  ∀ (nmax : Nat) (p : Phase) (rest : List HostAction),
    (∀ r, hostEdge nmax p (.request r :: rest)
        = ({ rst := false, reqValid := true, req := r },
           if p = .busy then .request r :: rest else rest))
      ∧ (p ≠ .full → (hostEdge nmax p (.wait :: rest)).1.rst = false
          ∧ (hostEdge nmax p (.wait :: rest)).1.reqValid = false
          ∧ (hostEdge nmax p (.wait :: rest)).2 = .wait :: rest)
      ∧ hostEdge nmax .full (.wait :: rest) = hostEdge nmax .full rest
      ∧ (hostEdge nmax p (.reset :: rest)).1.rst = true
      ∧ (hostEdge nmax p (.reset :: rest)).2 = rest
      ∧ hostScript nmax [] = [] ∧ hostScript nmax [.wait] = [.wait] ∧ hostScript nmax [.reset] = [.reset]
      ∧ (∀ text prog, hostScript nmax (.expect text :: prog) = hostScript nmax prog)
      ∧ ∀ l prog, hostScript nmax (l :: prog) = hostScript nmax [l] ++ hostScript nmax prog

/-- 30_encoding.md R51: each character of a string is one symbol, its 8-bit code, and the escape \xHH is the code 0xHH,
16 times the first digit's value plus the second's, wherever it stands in the string; a backslash that starts no
escape is a character like any other (log 15, DESIGN CHOICE). Symbol k goes to lane k, lanes the string does not
write hold 0x00, len is the number of symbols except in .req, and DECODE and ISVALID write m = 0. -/
def Obligations.RequestNotationWritesTheBundle : Prop :=
  (∀ str : List Char, '\\' ∉ str → symbolsOf str = str.map fun ch => BitVec.ofNat 8 ch.toNat)
    ∧ (∀ ch rest, ch ≠ '\\' → symbolsOf (ch :: rest) = BitVec.ofNat 8 ch.toNat :: symbolsOf rest)
    ∧ (∀ hi lo a b rest, HexValue hi a → HexValue lo b →
        hexByte hi lo = some (BitVec.ofNat 8 (16 * a + b))
          ∧ symbolsOf ('\\' :: 'x' :: hi :: lo :: rest)
              = BitVec.ofNat 8 (16 * a + b) :: symbolsOf rest)
    ∧ (∀ rest, (∀ hi lo a b rest', rest = 'x' :: hi :: lo :: rest' → HexValue hi a → ¬ HexValue lo b) →
        symbolsOf ('\\' :: rest) = 0x5c#8 :: symbolsOf rest)
    ∧ ∀ (nmax m n op len : Nat) (str : List Char), ∃ sym,
        sym.length = nmax ∧ (∀ k, k < nmax → lane sym k = (symbolsOf str).getD k 0x00#8)
          ∧ HostLine.action nmax (.encode m n str)
              = some (.request { op := 0b00#2, m := m, n := n, len := (symbolsOf str).length, sym := sym })
          ∧ HostLine.action nmax (.decode n str)
              = some (.request { op := 0b01#2, m := 0, n := n, len := (symbolsOf str).length, sym := sym })
          ∧ HostLine.action nmax (.isvalid n str)
              = some (.request { op := 0b10#2, m := 0, n := n, len := (symbolsOf str).length, sym := sym })
          ∧ HostLine.action nmax (.req op m n len str)
              = some (.request { op := BitVec.ofNat 2 op, m := m, n := n, len := len, sym := sym })

/-! ### Encoding -/

/-- 30_encoding.md R40, R41, R42: every bit of every field of every request that a bundle can carry survives
packing and decoding, for every capacity. -/
def Obligations.DecodeOfEncodeIsTheOperation : Prop :=
  ∀ (nmax : Nat) (i : Instr), i.wellFormed nmax = true → decode nmax (encode nmax i) = i

/-- 30_encoding.md R40: a packed request has REQW = 2 + 3W + 8 NMAX bits, and its fields are the bits that R40 names
(145 bits in the reference configuration). -/
def Obligations.PackedRequestFieldsStandAtTheirBits : Prop :=
  (∀ (nmax W : Nat) (v : BitVec (reqWidth nmax)), W = bitlength nmax →
      reqWidth nmax = 2 + 3 * W + 8 * nmax
        ∧ (unpackRequest nmax v).op.toNat = v.toNat % 2 ^ 2
        ∧ (unpackRequest nmax v).m = v.toNat / 2 ^ 2 % 2 ^ W
        ∧ (unpackRequest nmax v).n = v.toNat / 2 ^ (W + 2) % 2 ^ W
        ∧ (unpackRequest nmax v).len = v.toNat / 2 ^ (2 * W + 2) % 2 ^ W
        ∧ (unpackRequest nmax v).sym.length = nmax
        ∧ (∀ j, j < nmax →
            (lane (unpackRequest nmax v).sym j).toNat = v.toNat / 2 ^ (3 * W + 2 + 8 * j) % 2 ^ 8)
        ∧ packRequest nmax (unpackRequest nmax v) = v)
    ∧ bitlength 16 = 5 ∧ reqWidth 16 = 145

/-- 30_encoding.md R48, R49, R50: every word of REQW bits is the packed form of the well-formed operation that is
decoded from it, so no two words mean the same bundle and no word means none. -/
def Obligations.EncodeOfDecodeIsTheWord : Prop :=
  ∀ (nmax : Nat) (v : BitVec (reqWidth nmax)),
    encode nmax (decode nmax v) = v ∧ (decode nmax v).wellFormed nmax = true

/-- 30_encoding.md R41 and spec/opcode_table.json: the two low bits of a packed request select the operation. -/
def Obligations.LowTwoBitsSelectTheOperation : Prop :=
  ∀ (nmax : Nat) (v : BitVec (reqWidth nmax)),
    (v.toNat % 4 = 0 ↔ ∃ x, decode nmax v = .encode x)
      ∧ (v.toNat % 4 = 1 ↔ ∃ x, decode nmax v = .decode x)
      ∧ (v.toNat % 4 = 2 ↔ ∃ x, decode nmax v = .isvalid x)
      ∧ (v.toNat % 4 = 3 ↔ ∃ x, decode nmax v = .reserved x)

/-- Words of 95_test_vectors.md (E-1, D-1, V-3, I-2) written out from the packing of R40 decode to the operations
they stand for. -/
def Obligations.WordsOfTheVectorsDecode : Prop :=
  decode 16 0x626260624390#145
      = .encode ⟨4, 7, 4, [0x31#8, 0x30#8, 0x31#8, 0x31#8] ++ List.replicate 12 0x00#8⟩
    ∧ decode 16 0x626260606262607381#145
      = .decode ⟨0, 7, 7, [0x30#8, 0x31#8, 0x31#8, 0x30#8, 0x30#8, 0x31#8, 0x31#8]
          ++ List.replicate 9 0x00#8⟩
    ∧ decode 16 0x626260626262607382#145
      = .isvalid ⟨0, 7, 7, [0x30#8, 0x31#8, 0x31#8, 0x31#8, 0x30#8, 0x31#8, 0x31#8]
          ++ List.replicate 9 0x00#8⟩
    ∧ decode 16 0x626260624393#145
      = .reserved ⟨4, 7, 4, [0x31#8, 0x30#8, 0x31#8, 0x31#8] ++ List.replicate 12 0x00#8⟩

/-- The model's byte view of a packed request (log 9, DESIGN CHOICE): it carries every well-formed operation, and
a list of another length or with a bit above the bundle is rejected by name, any other is decoded. -/
def Obligations.ByteDecoderIsTotalAndInverse : Prop :=
  ∀ nmax : Nat,
    (∀ i : Instr, i.wellFormed nmax = true → decodeBytes nmax (encodeBytes nmax i) = .ok i)
      ∧ ∀ bs : List Byte,
          (decodeBytes nmax bs = .error .wrongByteCount ↔ bs.length ≠ reqBytes nmax)
            ∧ (decodeBytes nmax bs = .error .bitAboveRequest
                ↔ bs.length = reqBytes nmax ∧ 2 ^ reqWidth nmax ≤ natOfBytes bs)
            ∧ ((∃ i, decodeBytes nmax bs = .ok i)
                ↔ bs.length = reqBytes nmax ∧ natOfBytes bs < 2 ^ reqWidth nmax)

/-- 30_encoding.md R45: a packed response has RESPW bits, its fields are the bits that R45 names (36 bits in the
reference configuration), and packing loses no bit of a response whose fields fit. -/
def Obligations.PackedResponseFieldsStandAtTheirBits : Prop :=
  (∀ (nmax W RRW RMAX B : Nat), W = bitlength nmax → RMAX = rmin nmax → RRW = bitlength RMAX →
      B = W + 4 + nmax + RRW →
      respWidth nmax = B + RMAX + 3
        ∧ (∀ v : BitVec (respWidth nmax),
            (statusCode (unpackResponse nmax v).status).toNat = v.toNat % 2 ^ 2
              ∧ (unpackResponse nmax v).op.toNat = v.toNat / 2 ^ 2 % 2 ^ 2
              ∧ (unpackResponse nmax v).len = v.toNat / 2 ^ 4 % 2 ^ W
              ∧ (unpackResponse nmax v).bits.length = nmax
              ∧ (∀ i, i < nmax →
                  (unpackResponse nmax v).bits.getD i false = v.toNat.testBit (W + 4 + i))
              ∧ (unpackResponse nmax v).r = v.toNat / 2 ^ (W + 4 + nmax) % 2 ^ RRW
              ∧ (unpackResponse nmax v).syndrome = v.toNat / 2 ^ B % 2 ^ RMAX
              ∧ (unpackResponse nmax v).hadError = v.toNat.testBit (B + RMAX)
              ∧ (unpackResponse nmax v).uncorrectable = v.toNat.testBit (B + RMAX + 1)
              ∧ (unpackResponse nmax v).isValid = v.toNat.testBit (B + RMAX + 2)
              ∧ packResponse nmax (unpackResponse nmax v) = v)
        ∧ ∀ p : Response, ResponseFits nmax p → unpackResponse nmax (packResponse nmax p) = p)
    ∧ rmin 16 = 5 ∧ bitlength 5 = 3 ∧ respWidth 16 = 36

/-! ### Parameters -/

/-- 40_parameters.md R53: rmin(n) is the smallest r with 2^r >= n + 1, for every n. -/
def Obligations.ParityCountIsMinimal : Prop :=
  ∀ n : Nat,
    n + 1 ≤ 2 ^ rmin n ∧ (∀ r, n + 1 ≤ 2 ^ r → rmin n ≤ r)
      ∧ rmin 0 = 0 ∧ (1 ≤ n → 1 ≤ rmin n)

/-- 40_parameters.md R54: validateParams computes r = n - m over the integers, fails for r <= 0 (so for m > n,
m = n and n = 0), and else holds exactly when 2^r >= n + 1. -/
def Obligations.ValidateParamsOverTheIntegers : Prop :=
  ∀ m n : Nat,
    ((n : Int) - m ≤ 0 → validateParams m n = false)
      ∧ (∀ r : Nat, (n : Int) - m = r → 0 < r → (validateParams m n = true ↔ n + 1 ≤ 2 ^ r))
      ∧ (n < m → validateParams m n = false) ∧ validateParams n n = false
      ∧ validateParams m 0 = false ∧ validateParams 4 6 = false
      ∧ validateParams 3 7 = true

/-- 40_parameters.md R62 (which the spec derives): for each n in 1..NMAX ENCODE's gate accepts exactly
m = n - rmin(n), and the gate of DECODE and ISVALID accepts every such n and no other. -/
def Obligations.GateAcceptsExactlyOneDataLength : Prop :=
  ∀ nmax m n : Nat,
    (paramsOkEncode nmax m n = true ↔ 1 ≤ n ∧ n ≤ nmax ∧ m + rmin n = n)
      ∧ (paramsOkDecode nmax n = true ↔ 1 ≤ n ∧ n ≤ nmax)

/-- 40_parameters.md R60 (which the spec derives): the parity positions of 1..n are the 2^k with k < rmin(n), in
order, and there are n - rmin(n) data positions; the positions are 1..n, each once, in increasing order
(00_scope.md R6). -/
def Obligations.ParityPositionsAreThePowersOfTwo : Prop :=
  ∀ n : Nat,
    (positions n).filter isPow2 = (List.range (rmin n)).map (2 ^ ·)
      ∧ ((positions n).filter fun pos => !isPow2 pos).length + rmin n = n
      ∧ (∀ pos, pos ∈ positions n ↔ 1 ≤ pos ∧ pos ≤ n) ∧ (positions n).Pairwise (· < ·)

/-- 40_parameters.md R61 (which the spec derives): every parity index names a position of 1..n, only bits below r
of a position can be set, and every syndrome is below 2^r; and r equals bitlength(n) (which R53 derives). -/
def Obligations.ParityIndicesAndSyndromesStayInRange : Prop :=
  ∀ n : Nat,
    (∀ k, k < rmin n → 1 ≤ 2 ^ k ∧ 2 ^ k ≤ n)
      ∧ (∀ pos, pos ∈ positions n → pos < 2 ^ rmin n)
      ∧ (∀ c : List Bool, syndrome c n (rmin n) < 2 ^ rmin n)
      ∧ rmin n = bitlength n

/-! ### The five sub-blocks -/

/-- 41_encoder.md R63: the interleaved word has n positions; a parity position holds 0, and a data position holds
the data bit whose index is the number of data positions before it. -/
def Obligations.InterleavePlacesDataBitsInOrder : Prop :=
  ∀ (n : Nat) (d : List Bool), d.length + rmin n = n →
    (interleave d n).length = n
      ∧ (∀ pos, pos ∈ positions n → isPow2 pos = true → bitAt (interleave d n) pos = false)
      ∧ (∀ pos, pos ∈ positions n → isPow2 pos = false →
          bitAt (interleave d n) pos
            = d.getD ((positions (pos - 1)).filter fun q => !isPow2 q).length false)

/-- 41_encoder.md R64: the rounds k = 0 .. r-1 in increasing order, each of which stores at position 2^k the
parity of the current bits over the positions with bit k set, and changes no other position. -/
def Obligations.ParityRoundsStoreTheCurrentParity : Prop :=
  ∀ (n : Nat) (d : List Bool), d.length + rmin n = n →
    hammingEncoder d n 0 = interleave d n
      ∧ ∀ k, k < rmin n →
          bitAt (hammingEncoder d n (k + 1)) (2 ^ k)
              = xorAll (((positions n).filter fun pos => pos.testBit k).map (bitAt (hammingEncoder d n k)))
            ∧ (∀ pos, pos ∈ positions n → pos ≠ 2 ^ k →
                bitAt (hammingEncoder d n (k + 1)) pos = bitAt (hammingEncoder d n k) pos)
            ∧ (hammingEncoder d n (k + 1)).length = n

/-- 41_encoder.md R65 (which the spec derives): parity position 2^k becomes the exclusive-or of the data positions
with bit k set, data positions keep their bits, and the rounds may be done in any order. -/
def Obligations.ParityBitsDoNotDependOnTheOrder : Prop :=
  ∀ (n : Nat) (d : List Bool), d.length + rmin n = n →
    (∀ k, k < rmin n →
        bitAt (hammingEncoder d n (rmin n)) (2 ^ k)
          = xorAll (((positions n).filter fun pos => !isPow2 pos && pos &&& 2 ^ k != 0).map
              (bitAt (interleave d n))))
      ∧ (∀ pos, pos ∈ positions n → isPow2 pos = false →
          bitAt (hammingEncoder d n (rmin n)) pos = bitAt (interleave d n) pos)
      ∧ ∀ ks : List Nat, ks.Perm (List.range (rmin n)) →
          ks.foldl (parityRound n) (interleave d n) = hammingEncoder d n (rmin n)

/-- 41_encoder.md R67 (which the spec derives): every codeword that the encoder makes has syndrome 0. -/
def Obligations.EncodedWordHasSyndromeZero : Prop :=
  ∀ (n : Nat) (d : List Bool), d.length + rmin n = n →
    syndrome (hammingEncoder d n (rmin n)) n (rmin n) = 0

/-- 42_decoder.md R68: bit k of the syndrome is the parity over the positions with bit k set, for each k below r,
and no other bit is set; the all-zero codeword gives 0, and n = 1 gives c[1]. A parity is 1 exactly when an odd
number of the bits are 1 (00_scope.md R9). -/
def Obligations.SyndromeBitsAreTheParities : Prop :=
  ∀ (c : List Bool) (n r : Nat),
    (∀ k, k < r → (syndrome c n r).testBit k
        = xorAll (((positions n).filter fun pos => pos.testBit k).map (bitAt c)))
      ∧ (∀ k, r ≤ k → (syndrome c n r).testBit k = false)
      ∧ syndrome (List.replicate n false) n r = 0
      ∧ syndrome c 1 1 = (bitAt c 1).toNat
      ∧ ∀ bs : List Bool, xorAll bs = decide (bs.count true % 2 = 1)

/-- 42_decoder.md R69 (which the spec derives): the syndrome is the bitwise exclusive-or of the positions that
hold 1, and flipping the positions of E exclusive-ors E into it. -/
def Obligations.SyndromeIsTheXorOfThePositionsHoldingOne : Prop :=
  ∀ (n : Nat) (c : List Bool), c.length = n →
    syndrome c n (rmin n) = xorPositions ((positions n).filter (bitAt c))
      ∧ ∀ E : List Nat, E.Nodup → (∀ pos ∈ E, pos ∈ positions n) →
          syndrome (flipAll c E) n (rmin n) = syndrome c n (rmin n) ^^^ xorPositions E

/-- 42_decoder.md R70: the corrector's three cases; every position it does not flip keeps its bit, and
uncorrectable implies hadError. -/
def Obligations.CorrectorFlipsExactlyTheNamedPosition : Prop :=
  ∀ (c : List Bool) (n S : Nat), c.length = n →
    (S = 0 → correct c n S = ⟨c, false, false⟩)
      ∧ (1 ≤ S → S ≤ n →
          (correct c n S).hadError = true ∧ (correct c n S).uncorrectable = false
            ∧ (correct c n S).word = flipAt c S
            ∧ bitAt (correct c n S).word S = !bitAt c S
            ∧ (correct c n S).word.length = n
            ∧ ∀ pos, pos ∈ positions n → pos ≠ S → bitAt (correct c n S).word pos = bitAt c pos)
      ∧ (n < S → correct c n S = ⟨c, true, true⟩)
      ∧ ((correct c n S).uncorrectable = true → (correct c n S).hadError = true)

/-- 42_decoder.md R71: the extractor reads the data positions in increasing order, n - rmin(n) bits. -/
def Obligations.ExtractorReadsTheDataPositionsInOrder : Prop :=
  ∀ (n : Nat) (w : List Bool), w.length = n →
    extract w n = ((positions n).filter fun pos => !isPow2 pos).map (bitAt w)
      ∧ (extract w n).length + rmin n = n

/-- 42_decoder.md R72 (which the spec derives): the extractor undoes the encoder. -/
def Obligations.ExtractorUndoesTheEncoder : Prop :=
  ∀ (n : Nat) (d : List Bool), d.length + rmin n = n →
    extract (hammingEncoder d n (rmin n)) n = d

/-- 42_decoder.md R74 (which the spec derives; 90_conflicts.md C2): some received word of length n is
uncorrectable exactly when n + 1 is no power of two. -/
def Obligations.UncorrectableBranchIsLiveExactlyForShortenedCodes : Prop :=
  ∀ n : Nat, 1 ≤ n →
    ((∃ c : List Bool, c.length = n ∧ (hammingDecoder c n).uncorrectable = true)
      ↔ isPow2 (n + 1) = false)

/-- 42_decoder.md R76 (which the spec derives): what becomes of a codeword received with errors in two or more
positions E, by the exclusive-or X of E. -/
def Obligations.MultipleErrorsAreTreatedByTheirXor : Prop :=
  ∀ (n : Nat) (d : List Bool) (E : List Nat), d.length + rmin n = n →
    E.Nodup → (∀ pos ∈ E, pos ∈ positions n) → 2 ≤ E.length →
      ∀ c', c' = flipAll (hammingEncoder d n (rmin n)) E →
        (hammingDecoder c' n).syndrome = xorPositions E
          ∧ (xorPositions E = 0 →
              3 ≤ E.length ∧ (hammingDecoder c' n).hadError = false
                ∧ (hammingDecoder c' n).uncorrectable = false
                ∧ (hammingDecoder c' n).bits = extract c' n)
          ∧ (1 ≤ xorPositions E → xorPositions E ≤ n →
              (hammingDecoder c' n).hadError = true ∧ (hammingDecoder c' n).uncorrectable = false
                ∧ (hammingDecoder c' n).bits = extract (flipAt c' (xorPositions E)) n)
          ∧ (n < xorPositions E →
              (hammingDecoder c' n).hadError = true ∧ (hammingDecoder c' n).uncorrectable = true
                ∧ (hammingDecoder c' n).bits = extract c' n)

/-! ### What each operation does, and that it completes -/

/-- 41_encoder.md R66: ENCODE completes from every state and on all operands; which of the three responses it
writes; nothing but RESP, the phase and the latency count changes. The data bits are those that the lanes carry
(40_parameters.md R59). -/
def Obligations.EncodeCompletesWithTheCodewordOrTheError : Prop :=
  ∀ (x : Operands) (s : State), ∃ t, exec (.encode x) s = .next t
    ∧ t = { s with resp := t.resp, phase := .full, wait := 0 }
    ∧ (¬ InputGood s.cfg.nmax x x.m →
        t.resp = { zeroResponse s.cfg.nmax with status := .invalidInput, op := 0b00#2 })
    ∧ (InputGood s.cfg.nmax x x.m → ¬ EncodeParamsGood s.cfg.nmax x.m x.n →
        t.resp = { zeroResponse s.cfg.nmax with status := .invalidParameters, op := 0b00#2 })
    ∧ CarriesLanes x x.m (laneBits x x.m)
    ∧ (InputGood s.cfg.nmax x x.m → EncodeParamsGood s.cfg.nmax x.m x.n →
        (∀ i, i < x.n → t.resp.bits.getD i false
            = bitAt (hammingEncoder (laneBits x x.m) x.n (x.n - x.m)) (i + 1)) ∧
        t.resp =
          { status := .ok, op := 0b00#2, len := x.n,
            bits := hammingEncoder (laneBits x x.m) x.n (x.n - x.m)
              ++ List.replicate (s.cfg.nmax - x.n) false,
            r := 0, syndrome := 0, hadError := false, uncorrectable := false, isValid := false })

/-- 42_decoder.md R73: DECODE completes from every state and on all operands; which of the three responses it
writes; nothing but RESP, the phase and the latency count changes. The received codeword is the bits that the
lanes carry (40_parameters.md R59). -/
def Obligations.DecodeCompletesWithTheWordOrTheError : Prop :=
  ∀ (x : Operands) (s : State), ∃ t, exec (.decode x) s = .next t
    ∧ t = { s with resp := t.resp, phase := .full, wait := 0 }
    ∧ (¬ InputGood s.cfg.nmax x x.n →
        t.resp = { zeroResponse s.cfg.nmax with status := .invalidInput, op := 0b01#2 })
    ∧ (InputGood s.cfg.nmax x x.n → ¬ DecodeParamsGood s.cfg.nmax x.n →
        t.resp = { zeroResponse s.cfg.nmax with status := .invalidParameters, op := 0b01#2 })
    ∧ CarriesLanes x x.n (laneBits x x.n)
    ∧ (∀ pos, pos ∈ positions x.n →
        bitAt (laneBits x x.n) pos = decide (lane x.sym (pos - 1) = 0x31#8))
    ∧ (InputGood s.cfg.nmax x x.n → DecodeParamsGood s.cfg.nmax x.n →
        ∀ c S w, c = laneBits x x.n → S = syndrome c x.n (rmin x.n) →
          w = (if 1 ≤ S ∧ S ≤ x.n then flipAt c S else c) →
          t.resp =
            { status := .ok, op := 0b01#2, len := x.n - rmin x.n,
              bits := extract w x.n
                ++ List.replicate (s.cfg.nmax - (x.n - rmin x.n)) false,
              r := rmin x.n, syndrome := S, hadError := decide (S ≠ 0),
              uncorrectable := decide (x.n < S), isValid := false })

/-- 43_parity_checker.md R80: ISVALID completes from every state and on all operands; which of the three responses
it writes; nothing but RESP, the phase and the latency count changes. The received codeword is the bits that the
lanes carry (40_parameters.md R59). -/
def Obligations.IsvalidCompletesWithTheCheckOrTheError : Prop :=
  ∀ (x : Operands) (s : State), ∃ t, exec (.isvalid x) s = .next t
    ∧ t = { s with resp := t.resp, phase := .full, wait := 0 }
    ∧ (¬ InputGood s.cfg.nmax x x.n →
        t.resp = { zeroResponse s.cfg.nmax with status := .invalidInput, op := 0b10#2 })
    ∧ (InputGood s.cfg.nmax x x.n → ¬ DecodeParamsGood s.cfg.nmax x.n →
        t.resp = { zeroResponse s.cfg.nmax with status := .invalidParameters, op := 0b10#2 })
    ∧ CarriesLanes x x.n (laneBits x x.n)
    ∧ (∀ pos, pos ∈ positions x.n →
        bitAt (laneBits x x.n) pos = decide (lane x.sym (pos - 1) = 0x31#8))
    ∧ (InputGood s.cfg.nmax x x.n → DecodeParamsGood s.cfg.nmax x.n →
        ∀ S, S = syndrome (laneBits x x.n) x.n (rmin x.n) →
          t.resp =
            { status := .ok, op := 0b10#2, len := 0, bits := List.replicate s.cfg.nmax false, r := 0,
              syndrome := S, hadError := false, uncorrectable := false, isValid := decide (S = 0) })

/-- 30_encoding.md R44 and 60_exceptions.md R84: a request with op = 3 is accepted like any other and completes
with ILLEGAL_OP, op 3 and zeros whatever its other fields are; no other operation writes that status. -/
def Obligations.ReservedOpCompletesWithIllegalOp : Prop :=
  (∀ (x : Operands) (s : State),
      exec (.reserved x) s
        = .next { s with
                    resp := { status := .illegalOp, op := 0b11#2, len := 0,
                              bits := List.replicate s.cfg.nmax false, r := 0, syndrome := 0,
                              hadError := false, uncorrectable := false, isValid := false }
                    phase := .full, wait := 0 })
    ∧ (∀ (i : Instr) (s t : State), exec i s = .next t → t.resp.status = .illegalOp →
        ∃ x, i = .reserved x)
    ∧ ∀ s : State, s.Accepts → s.pins.req.op = 0b11#2 →
        ∃ t, step s = .next t ∧ t.phase = .busy ∧ ∃ x, decodeRequest t.req = .reserved x

/-- 60_exceptions.md R85: exactly one status, IllegalOp before InvalidInput before InvalidParameters; the codes
of the four statuses (30_encoding.md R46). -/
def Obligations.ErrorPriorityIsOpThenInputThenParameters : Prop :=
  statusCode .ok = 0#2 ∧ statusCode .invalidInput = 1#2 ∧ statusCode .invalidParameters = 2#2
    ∧ statusCode .illegalOp = 3#2
    ∧ ∀ (i : Instr) (s t : State), exec i s = .next t →
    t.resp.status =
      match i with
      | .reserved _ => .illegalOp
      | .encode x =>
        if InputGood s.cfg.nmax x x.m then
          if EncodeParamsGood s.cfg.nmax x.m x.n then .ok else .invalidParameters
        else .invalidInput
      | .decode x =>
        if InputGood s.cfg.nmax x x.n then
          if DecodeParamsGood s.cfg.nmax x.n then .ok else .invalidParameters
        else .invalidInput
      | .isvalid x =>
        if InputGood s.cfg.nmax x x.n then
          if DecodeParamsGood s.cfg.nmax x.n then .ok else .invalidParameters
        else .invalidInput

/-- 60_exceptions.md R82: InvalidInput is written exactly for its three causes, with expected = m for ENCODE and
expected = n for DECODE and ISVALID. -/
def Obligations.InvalidInputHasExactlyItsThreeCauses : Prop :=
  ∀ (x : Operands) (s t u v : State),
    exec (.encode x) s = .next t → exec (.decode x) s = .next u → exec (.isvalid x) s = .next v →
      ∀ bad, bad = (s.cfg.nmax < x.len
          ∨ ∃ j, j < x.len ∧ lane x.sym j ≠ 0x30#8 ∧ lane x.sym j ≠ 0x31#8) →
        (t.resp.status = .invalidInput ↔ x.len ≠ x.m ∨ bad)
          ∧ (u.resp.status = .invalidInput ↔ x.len ≠ x.n ∨ bad)
          ∧ (v.resp.status = .invalidInput ↔ x.len ≠ x.n ∨ bad)

/-- 60_exceptions.md R83: when the input check passes, ENCODE reports InvalidParameters exactly for n > NMAX,
n - m <= 0, 2^(n-m) < n + 1 or m != n - rmin(n), over the integers, and DECODE and ISVALID exactly for n = 0. -/
def Obligations.InvalidParametersHasExactlyItsCauses : Prop :=
  ∀ (x : Operands) (s t u v : State),
    exec (.encode x) s = .next t → exec (.decode x) s = .next u → exec (.isvalid x) s = .next v →
      (InputGood s.cfg.nmax x x.m →
          (t.resp.status = .invalidParameters ↔
            s.cfg.nmax < x.n ∨ (x.n : Int) - x.m ≤ 0 ∨ 2 ^ (x.n - x.m) < x.n + 1
              ∨ (x.m : Int) ≠ x.n - rmin x.n))
        ∧ (InputGood s.cfg.nmax x x.n →
            (u.resp.status = .invalidParameters ↔ x.n = 0)
              ∧ (v.resp.status = .invalidParameters ↔ x.n = 0))
        ∧ (t.resp.status = .invalidParameters → InputGood s.cfg.nmax x x.m)
        ∧ (u.resp.status = .invalidParameters → InputGood s.cfg.nmax x x.n)
        ∧ (v.resp.status = .invalidParameters → InputGood s.cfg.nmax x x.n)

/-- 60_exceptions.md R86, R88: an error response holds the status and the op and zeros, and an error changes
nothing but RESP and the phase (with the latency count, which is 0 outside BUSY). -/
def Obligations.ErrorLeavesOnlyStatusAndOp : Prop :=
  ∀ (i : Instr) (s t : State), exec i s = .next t → t.resp.status ≠ .ok →
    t.resp.op = i.opCode ∧ t.resp.len = 0 ∧ t.resp.r = 0 ∧ t.resp.syndrome = 0
      ∧ t.resp.hadError = false ∧ t.resp.uncorrectable = false ∧ t.resp.isValid = false
      ∧ t.resp.bits.length = s.cfg.nmax ∧ (∀ k, t.resp.bits.getD k false = false)
      ∧ t = { s with resp := t.resp, phase := .full, wait := 0 }

/-- 10_state.md R19: every field that an operation's rule does not name is written 0, whatever RESP held: r and the
error flags by ENCODE and ISVALID, syndrome by ENCODE, len and the lanes by ISVALID, is_valid by ENCODE and
DECODE, every lane at or above len, and on an error every field but status and op. -/
def Obligations.UnnamedFieldsAreWrittenZero : Prop :=
  ∀ (i : Instr) (s t : State), exec i s = .next t →
    (∀ k, t.resp.len ≤ k → t.resp.bits.getD k false = false)
      ∧ (∀ x, i = .encode x → t.resp.r = 0 ∧ t.resp.syndrome = 0 ∧ t.resp.hadError = false
          ∧ t.resp.uncorrectable = false ∧ t.resp.isValid = false)
      ∧ (∀ x, i = .decode x → t.resp.isValid = false)
      ∧ (∀ x, i = .isvalid x → t.resp.len = 0 ∧ t.resp.r = 0 ∧ t.resp.hadError = false
          ∧ t.resp.uncorrectable = false)
      ∧ (t.resp.status ≠ .ok →
          t.resp = { zeroResponse s.cfg.nmax with status := t.resp.status, op := t.resp.op })
      ∧ ∀ p : Response, exec i { s with resp := p } = .next t

/-- 30_encoding.md R47: op is echoed always; len is n after a successful ENCODE, n - r after a successful DECODE, and
0 after ISVALID and after every error. -/
def Obligations.OpIsEchoedAndLenIsTheResultLength : Prop :=
  ∀ (i : Instr) (s t : State), exec i s = .next t →
    t.resp.op = i.opCode
      ∧ (∀ x, i = .encode x → t.resp.status = .ok → t.resp.len = x.n)
      ∧ (∀ x, i = .decode x → t.resp.status = .ok → t.resp.len = x.n - rmin x.n)
      ∧ (∀ x, i = .isvalid x → t.resp.len = 0)
      ∧ (t.resp.status ≠ .ok → t.resp.len = 0)

/-- 60_exceptions.md R87: a non-zero syndrome is not an error: DECODE with had_error (uncorrectable included)
ends with status OK and its full result, and so does ISVALID when it finds a non-zero syndrome. -/
def Obligations.NonzeroSyndromeEndsWithStatusOk : Prop :=
  ∀ (x : Operands) (s t u : State),
    exec (.decode x) s = .next t → exec (.isvalid x) s = .next u →
      (t.resp.hadError = true ∨ t.resp.uncorrectable = true → t.resp.status = .ok
          ∧ t.resp.len = x.n - rmin x.n ∧ t.resp.r = rmin x.n
          ∧ t.resp.syndrome = syndrome (laneBits x x.n) x.n (rmin x.n) ∧ t.resp.syndrome ≠ 0
          ∧ t.resp.bits
              = fillLanes s.cfg.nmax t.resp.len
                  (extract (correct (laneBits x x.n) x.n t.resp.syndrome).word x.n))
        ∧ (u.resp.syndrome ≠ 0 → u.resp.status = .ok ∧ u.resp.isValid = false)

/-- 10_state.md R23 (its clauses on the flags): what sets each flag, whichever the operation. -/
def Obligations.FlagsAreSetOnlyByTheirOperations : Prop :=
  ∀ (i : Instr) (s t : State), exec i s = .next t →
    (t.resp.hadError = true ↔ (∃ x, i = .decode x) ∧ t.resp.syndrome ≠ 0)
      ∧ (t.resp.uncorrectable = true ↔ ∃ x, i = .decode x ∧ x.n < t.resp.syndrome)
      ∧ (t.resp.isValid = true ↔
          (∃ x, i = .isvalid x) ∧ t.resp.status = .ok ∧ t.resp.syndrome = 0)

/-! ### What a response depends on -/

/-- 00_scope.md R12, 10_state.md R27: two Completes of one operation on blocks of one capacity write the same
response, whatever either state held, and leave equal what they found equal. -/
def Obligations.ResponseDependsOnTheRequestOnly : Prop :=
  ∀ (i : Instr) (s s' : State), s.cfg = s'.cfg →
    ∃ t t', exec i s = .next t ∧ exec i s' = .next t'
      ∧ t.resp = t'.resp ∧ t.phase = t'.phase ∧ t.wait = t'.wait
      ∧ t.req = s.req ∧ t.script = s.script ∧ t.draws = s.draws ∧ t.initialised = s.initialised

/-- 30_encoding.md R42, R43: DECODE and ISVALID ignore m, and no operation looks at a lane at or above
min(len, NMAX); the reserved op looks at nothing. -/
def Obligations.IgnoredFieldsNeverChangeTheResponse : Prop :=
  ∀ (x y : Operands) (nmax : Nat), x.n = y.n → x.len = y.len →
    (∀ j, j < min x.len nmax → lane x.sym j = lane y.sym j) →
      respondTo nmax (.decode x) = respondTo nmax (.decode y)
        ∧ respondTo nmax (.isvalid x) = respondTo nmax (.isvalid y)
        ∧ (x.m = y.m → respondTo nmax (.encode x) = respondTo nmax (.encode y))
        ∧ ∀ a b, respondTo nmax (.reserved a) = respondTo nmax (.reserved b)

/-- 43_parity_checker.md R79 (which the spec derives): ISVALID and DECODE of one request report the same status,
and on success is_valid = 1 exactly when had_error = 0, with the same syndrome. -/
def Obligations.IsvalidAgreesWithDecode : Prop :=
  ∀ (x : Operands) (s : State), ∃ t u,
    exec (.decode x) s = .next t ∧ exec (.isvalid x) s = .next u
      ∧ t.resp.status = u.resp.status ∧ t.resp.syndrome = u.resp.syndrome
      ∧ (t.resp.status = .ok → u.resp.isValid = !t.resp.hadError)

/-! ### The code through the block -/

/-- 41_encoder.md R67 and 42_decoder.md R75 (which the spec derives), through the block: DECODE of the bits that
ENCODE wrote gives the data word back with syndrome 0 and no error, for every accepted (m, n) and data word. -/
def Obligations.RoundTripThroughTheBlock : Prop :=
  ∀ (s s' t : State) (d : List Bool) (n : Nat) (x y : Operands),
    s'.cfg = s.cfg → 1 ≤ n → n ≤ s.cfg.nmax → d.length + rmin n = n →
    x.m = d.length → x.n = n → x.len = d.length →
    (∀ j, j < d.length → lane x.sym j = bitSymbol (d.getD j false)) →
    exec (.encode x) s = .next t →
    y.n = n → y.len = n →
    (∀ j, j < n → lane y.sym j = bitSymbol (t.resp.bits.getD j false)) →
      ∃ u, exec (.decode y) s' = .next u
        ∧ u.resp =
            { status := .ok, op := 0b01#2, len := d.length,
              bits := d ++ List.replicate (s.cfg.nmax - d.length) false, r := rmin n, syndrome := 0,
              hadError := false, uncorrectable := false, isValid := false }

/-- 42_decoder.md R75 (which the spec derives), through the block: when one position i of the bits that ENCODE wrote
is flipped, DECODE gives the data word back with had_error = 1, uncorrectable = 0 and syndrome i. -/
def Obligations.SingleBitErrorIsCorrectedThroughTheBlock : Prop :=
  ∀ (s s' t : State) (d : List Bool) (n i : Nat) (x y : Operands),
    s'.cfg = s.cfg → 1 ≤ n → n ≤ s.cfg.nmax → d.length + rmin n = n → 1 ≤ i → i ≤ n →
    x.m = d.length → x.n = n → x.len = d.length →
    (∀ j, j < d.length → lane x.sym j = bitSymbol (d.getD j false)) →
    exec (.encode x) s = .next t →
    y.n = n → y.len = n →
    (∀ j, j < n → lane y.sym j
        = bitSymbol (if j + 1 = i then !t.resp.bits.getD j false else t.resp.bits.getD j false)) →
      ∃ u, exec (.decode y) s' = .next u
        ∧ u.resp =
            { status := .ok, op := 0b01#2, len := d.length,
              bits := d ++ List.replicate (s.cfg.nmax - d.length) false, r := rmin n, syndrome := i,
              hadError := true, uncorrectable := false, isValid := false }

/-! ### The invariant -/

/-- The registers keep their widths (10_state.md R16, R17), RESP stays coherent (R19, R23), the held response is the
one to the latched request (R15, R22, R27) and the latency count belongs to BUSY, at every step from every
state that satisfies it. -/
def Obligations.StepKeepsTheInvariant : Prop :=
  ∀ s t : State, s.Inv → step s = .next t → t.Inv

/-- The invariant holds right after Reset for every capacity of at least 1, in State.reset, in every state before
the first Reset, and where withFetchWord places a request. -/
def Obligations.ResetStateMeetsTheInvariant : Prop :=
  (∀ cfg : Config, 1 ≤ cfg.nmax → (State.resetOf cfg).Inv)
    ∧ State.reset.Inv
    ∧ (∀ s : State, 1 ≤ s.cfg.nmax → s.initialised = false → s.Inv)
    ∧ ∀ (s : State) (nbits w : Nat), s.Inv → s.initialised = true → (s.withFetchWord nbits w).Inv
end

