-- ==== Sys2Proof/Laws/Params.lean ====
section
/-! SUPPORT. What parameter derivation, the gates and the input check do: one lemma per function, which later
proofs cite instead of unfolding it. -/

namespace Sys2Proof.Machine

/-- The loop of R53 ends at the first r' >= r with `n < 2^r'`, if the fuel reaches one. -/
theorem rminLoop_least (fuel n r : Nat) (hr : ∀ q, q < r → 2 ^ q ≤ n) (hf : n < 2 ^ (r + fuel)) :
    n < 2 ^ rminLoop fuel n r ∧ ∀ q, q < rminLoop fuel n r → 2 ^ q ≤ n := by
  induction fuel generalizing r with
  | zero => exact ⟨by simpa [rminLoop] using hf, by simpa [rminLoop] using hr⟩
  | succ fuel ih =>
    simp only [rminLoop]
    split
    · apply ih
      · intro q hq
        rcases Nat.lt_succ_iff_lt_or_eq.mp hq with h | rfl
        · exact hr q h
        · omega
      · rwa [Nat.add_right_comm]
    · exact ⟨by omega, hr⟩

theorem lt_two_pow_rmin (n : Nat) : n < 2 ^ rmin n :=
  (rminLoop_least n n 0 (by simp) (by simpa using Nat.lt_two_pow_self)).1

/-- Every power of two below `2 ^ rmin n` is at most n. -/
theorem two_pow_le_of_lt_rmin {n k : Nat} (h : k < rmin n) : 2 ^ k ≤ n :=
  (rminLoop_least n n 0 (by simp) (by simpa using Nat.lt_two_pow_self)).2 k h

theorem rmin_le_of_lt_two_pow {n r : Nat} (h : n < 2 ^ r) : rmin n ≤ r := by
  by_contra hlt
  have := two_pow_le_of_lt_rmin (Nat.lt_of_not_le hlt)
  omega

theorem rmin_le_self (n : Nat) : rmin n ≤ n := rmin_le_of_lt_two_pow Nat.lt_two_pow_self

theorem rmin_pos {n : Nat} (h : 1 ≤ n) : 1 ≤ rmin n := by
  by_contra hlt
  have h0 : rmin n = 0 := by omega
  have := lt_two_pow_rmin n
  rw [h0] at this
  omega

theorem rmin_mono {m n : Nat} (h : m ≤ n) : rmin m ≤ rmin n :=
  rmin_le_of_lt_two_pow (Nat.lt_of_le_of_lt h (lt_two_pow_rmin n))

theorem lt_two_pow_bitlength (n : Nat) : n < 2 ^ bitlength n := by
  unfold bitlength
  split
  · omega
  · exact Nat.lt_log2_self

/-- A data length and the parity count of n make up n only for a positive number of parity positions. -/
theorem one_le_of_add_rmin {m n : Nat} (h : m + rmin n = n) (hm : m < n) : 1 ≤ n := by omega

theorem le_two_pow_of_gate {m n : Nat} (h : m + rmin n = n) : n + 1 ≤ 2 ^ (n - m) := by
  have := lt_two_pow_rmin n
  rwa [show n - m = rmin n by omega]

theorem validateParams_iff (m n : Nat) :
    validateParams m n = true ↔ m < n ∧ n + 1 ≤ 2 ^ (n - m) := by
  unfold validateParams
  have hr : ((n : Int) - m).toNat = n - m := by omega
  simp only [hr]
  constructor
  · intro h
    split at h
    · cases h
    · refine ⟨by omega, ?_⟩
      have := of_decide_eq_true h
      exact_mod_cast this
  · rintro ⟨h1, h2⟩
    rw [if_neg (by omega)]
    apply decide_eq_true
    exact_mod_cast h2

theorem consistent_iff (m n : Nat) : consistent m n = true ↔ m + rmin n = n := by
  unfold consistent
  rw [decide_eq_true_iff]
  omega

/-- The gate of ENCODE passes exactly when none of R83's failures applies. -/
theorem paramsOkEncode_iff_good (nmax m n : Nat) :
    paramsOkEncode nmax m n = true ↔ EncodeParamsGood nmax m n := by
  simp only [paramsOkEncode, fits, Bool.and_eq_true, decide_eq_true_iff, validateParams_iff,
    consistent_iff, EncodeParamsGood]
  tauto

/-- The gate of DECODE and ISVALID, for the m it derives. -/
theorem paramsOkDecode_eq_encode (nmax n : Nat) :
    paramsOkDecode nmax n = paramsOkEncode nmax (n - rmin n) n := by
  have h : ((n : Int) - rmin n) = ((n - rmin n : Nat) : Int) := by
    have := rmin_le_self n
    omega
  simp only [paramsOkDecode, paramsOkEncode, h]

/-- The gate of DECODE and ISVALID passes exactly when none of their failures applies. -/
theorem paramsOkDecode_iff_good (nmax n : Nat) :
    paramsOkDecode nmax n = true ↔ DecodeParamsGood nmax n := by
  rw [paramsOkDecode_eq_encode, paramsOkEncode_iff_good]
  have hle := rmin_le_self n
  have hsum : n - rmin n + rmin n = n := by omega
  constructor
  · rintro ⟨h1, h2, -, -⟩
    exact ⟨by omega, h1⟩
  · rintro ⟨h1, h2⟩
    have := rmin_pos h1
    exact ⟨h2, by omega, le_two_pow_of_gate hsum, hsum⟩

theorem isBinary_iff (s : Symbol) : isBinary s = true ↔ s = 0x30#8 ∨ s = 0x31#8 := by
  simp [isBinary]

/-- The input check passes exactly when none of R82's causes applies. -/
theorem inputOk_iff_good (nmax : Nat) (x : Operands) (e : Nat) :
    inputOk nmax x e = true ↔ InputGood nmax x e := by
  unfold inputOk InputGood
  by_cases h1 : x.len = e
  · by_cases h2 : x.len ≤ nmax
    · have h2' : ¬ e > nmax := by omega
      simp [h1, h2', isBinary_iff, List.all_eq_true, h1 ▸ h2]
    · simp [h1]
      omega
  · simp [h1]

theorem bitOf_bitSymbol (b : Bool) : bitOf (bitSymbol b) = b := by cases b <;> rfl

theorem bitSymbol_binary (b : Bool) : bitSymbol b = 0x30#8 ∨ bitSymbol b = 0x31#8 := by
  cases b <;> simp [bitSymbol]

@[simp] theorem laneBits_length (x : Operands) (k : Nat) : (laneBits x k).length = k := by
  simp [laneBits]

/-- Lanes that carry the symbols of d read back as d. -/
theorem laneBits_of_symbols {x : Operands} {d : List Bool}
    (h : ∀ j, j < d.length → lane x.sym j = bitSymbol (d.getD j false)) : laneBits x d.length = d := by
  apply List.ext_getElem (by simp)
  intro j _ hj
  simp [laneBits, h j hj, bitOf_bitSymbol, hj]

theorem laneBits_carries (x : Operands) (k : Nat) : CarriesLanes x k (laneBits x k) := by
  refine ⟨laneBits_length x k, fun j hj => ?_⟩
  simp [laneBits, hj, bitOf, beq_eq_decide]

/-- Codeword position pos is lane pos - 1. -/
theorem bitAt_laneBits {x : Operands} {k pos : Nat} (h1 : 1 ≤ pos) (h2 : pos ≤ k) :
    bitAt (laneBits x k) pos = decide (lane x.sym (pos - 1) = 0x31#8) :=
  (laneBits_carries x k).2 (pos - 1) (by omega)

/-- Only the lanes below the length matter. -/
theorem laneBits_congr {x y : Operands} {k : Nat} (h : ∀ j, j < k → lane x.sym j = lane y.sym j) :
    laneBits x k = laneBits y k := by
  apply List.map_congr_left
  intro j hj
  rw [h j (List.mem_range.mp hj)]

end Sys2Proof.Machine
end

