-- ==== Sys2Proof/Laws/Codeword.lean ====
section
/-! SUPPORT. Local codewords: positions, powers of two, reading and writing a position, and how the parity over a
set of positions moves when one position is written. -/

namespace Sys2Proof.Machine

theorem mem_positions {n pos : Nat} : pos ∈ positions n ↔ 1 ≤ pos ∧ pos ≤ n := by
  simp only [positions, List.mem_range'_1]
  omega

theorem positions_nodup (n : Nat) : (positions n).Nodup := List.nodup_range'

@[simp] theorem positions_length (n : Nat) : (positions n).length = n := by simp [positions]

theorem positions_succ (n : Nat) : positions (n + 1) = positions n ++ [n + 1] := by
  simp [positions, List.range'_concat, Nat.add_comm]

/-- A number with its highest bit k has that bit set. -/
theorem testBit_of_between {x k : Nat} (h1 : 2 ^ k ≤ x) (h2 : x < 2 ^ (k + 1)) : x.testBit k = true := by
  have h3 : x / 2 ^ k = 1 := by
    apply Nat.div_eq_of_lt_le <;> rw [Nat.pow_succ] at * <;> omega
  simp [Nat.testBit_eq_decide_div_mod_eq, h3]

/-- isPow2 holds exactly of the powers of two (00_scope.md R7). -/
theorem isPow2_iff {p : Nat} (hp : 1 ≤ p) : isPow2 p = true ↔ ∃ k, p = 2 ^ k := by
  unfold isPow2
  rw [beq_iff_eq]
  constructor
  · intro h
    refine ⟨Nat.log2 p, ?_⟩
    by_contra hne
    have h1 : 2 ^ Nat.log2 p ≤ p := Nat.log2_self_le (by omega)
    have h2 : p < 2 ^ (Nat.log2 p + 1) := Nat.lt_log2_self
    have h3 := testBit_of_between h1 h2
    have h4 := testBit_of_between (x := p - 1) (by omega) (by omega : p - 1 < 2 ^ (Nat.log2 p + 1))
    have h5 : (p &&& (p - 1)).testBit (Nat.log2 p) = true := by rw [Nat.testBit_and, h3, h4]; rfl
    rw [h] at h5
    simp at h5
  · rintro ⟨k, rfl⟩
    rw [Nat.and_two_pow_sub_one_eq_mod, Nat.mod_self]

theorem isPow2_two_pow (k : Nat) : isPow2 (2 ^ k) = true := (isPow2_iff Nat.one_le_two_pow).mpr ⟨k, rfl⟩

/-- "Has bit k set", in the two spellings of R8. -/
theorem and_two_pow_ne_zero (pos k : Nat) : (pos &&& 2 ^ k != 0) = pos.testBit k := by
  rw [Nat.and_two_pow]
  cases h : pos.testBit k <;> simp

@[simp] theorem setBit_length (c : List Bool) (p : Nat) (b : Bool) : (setBit c p b).length = c.length := by
  simp [setBit]

@[simp] theorem flipAt_length (c : List Bool) (p : Nat) : (flipAt c p).length = c.length := by
  simp [flipAt]

theorem bitAt_setBit_same {c : List Bool} {p : Nat} {b : Bool} (h1 : 1 ≤ p) (h2 : p ≤ c.length) :
    bitAt (setBit c p b) p = b := by
  have h : p - 1 < c.length := by omega
  simp [bitAt, setBit, h]

theorem bitAt_setBit_other {c : List Bool} {p q : Nat} {b : Bool} (hp : 1 ≤ p) (hq : 1 ≤ q) (h : q ≠ p) :
    bitAt (setBit c p b) q = bitAt c q := by
  have h : p - 1 ≠ q - 1 := by omega
  simp [bitAt, setBit, List.getD_eq_getElem?_getD, List.getElem?_set_ne h]

/-- Two codewords of one length with the same bits at their positions are equal. -/
theorem codeword_ext {c c' : List Bool} {n : Nat} (h : c.length = n) (h' : c'.length = n)
    (hb : ∀ pos ∈ positions n, bitAt c pos = bitAt c' pos) : c = c' := by
  apply List.ext_getElem (h.trans h'.symm)
  intro i hi hi'
  have := hb (i + 1) (mem_positions.mpr ⟨by omega, by omega⟩)
  simpa [bitAt, hi, hi'] using this

@[simp] theorem xorAll_nil : xorAll [] = false := rfl

@[simp] theorem xorAll_cons (b : Bool) (bs : List Bool) : xorAll (b :: bs) = (b ^^ xorAll bs) := rfl

theorem xorAll_append (as bs : List Bool) : xorAll (as ++ bs) = (xorAll as ^^ xorAll bs) := by
  induction as with
  | nil => simp
  | cons a as ih => simp [ih]

/-- The parity of a sum of bits is the exclusive-or of the parities. -/
theorem xorAll_map_xor (l : List Nat) (f g : Nat → Bool) :
    xorAll (l.map fun p => f p ^^ g p) = (xorAll (l.map f) ^^ xorAll (l.map g)) := by
  induction l with
  | nil => rfl
  | cons a l ih =>
    simp only [List.map_cons, xorAll_cons, ih]
    cases f a <;> cases g a <;> cases xorAll (l.map f) <;> simp

/-- A filtered parity as a parity of masked bits. -/
theorem xorAll_filter_map (l : List Nat) (s f : Nat → Bool) :
    xorAll ((l.filter s).map f) = xorAll (l.map fun p => s p && f p) := by
  induction l with
  | nil => rfl
  | cons a l ih => cases h : s a <;> simp [h, ih]

theorem xorAll_map_congr {l : List Nat} {f g : Nat → Bool} (h : ∀ p ∈ l, f p = g p) :
    xorAll (l.map f) = xorAll (l.map g) := by rw [List.map_congr_left h]

theorem xorAll_map_false (l : List Nat) : xorAll (l.map fun _ => false) = false := by
  induction l with
  | nil => rfl
  | cons _ l ih => rw [List.map_cons, xorAll_cons, ih, Bool.xor_false]

/-- The parity of a bit that is 1 at one element only. -/
theorem xorAll_map_single {l : List Nat} (hl : l.Nodup) {p : Nat} (hp : p ∈ l) (b : Bool) :
    xorAll (l.map fun q => decide (q = p) && b) = b := by
  induction l with
  | nil => cases hp
  | cons a l ih =>
    rw [List.nodup_cons] at hl
    rw [List.map_cons, xorAll_cons]
    by_cases h : a = p
    · subst h
      have : xorAll (l.map fun q => decide (q = a) && b) = xorAll (l.map fun _ => false) := by
        apply xorAll_map_congr
        intro q hq
        have : q ≠ a := fun h => hl.1 (h ▸ hq)
        simp [this]
      rw [this, xorAll_map_false]
      simp
    · have hp' : p ∈ l := by simpa [Ne.symm h] using hp
      simp [h, ih hl.2 hp']

/-- The shared parity of R64 and R68 as a parity of masked bits. -/
theorem parityOver_eq (c : List Bool) (n k : Nat) :
    parityOver c n (2 ^ k) = xorAll ((positions n).map fun pos => pos.testBit k && bitAt c pos) := by
  unfold parityOver
  rw [xorAll_filter_map]
  simp only [and_two_pow_ne_zero]

/-- Writing position p moves the parity over bit k by p's change, and only if p has bit k set. -/
theorem parityOver_setBit {c : List Bool} {n p : Nat} (hc : c.length = n) (hp : p ∈ positions n)
    (b : Bool) (k : Nat) :
    parityOver (setBit c p b) n (2 ^ k)
      = (parityOver c n (2 ^ k) ^^ (p.testBit k && (bitAt c p ^^ b))) := by
  rw [parityOver_eq, parityOver_eq, ← xorAll_map_single (positions_nodup n) hp
    (p.testBit k && (bitAt c p ^^ b)), ← xorAll_map_xor]
  apply xorAll_map_congr
  intro q hq
  have hp' := mem_positions.mp hp
  have hq' := mem_positions.mp hq
  by_cases h : q = p
  · subst h
    rw [bitAt_setBit_same hq'.1 (by omega)]
    cases q.testBit k <;> cases bitAt c q <;> simp
  · rw [bitAt_setBit_other hp'.1 hq'.1 h]
    simp [h]

theorem parityOver_flipAt {c : List Bool} {n p : Nat} (hc : c.length = n) (hp : p ∈ positions n)
    (k : Nat) :
    parityOver (flipAt c p) n (2 ^ k) = (parityOver c n (2 ^ k) ^^ p.testBit k) := by
  rw [flipAt, parityOver_setBit hc hp]
  cases bitAt c p <;> simp

/-- No two different powers of two share a bit. -/
theorem testBit_two_pow_other {j k : Nat} (h : j ≠ k) : (2 ^ j).testBit k = false := by
  rw [Nat.testBit_two_pow]
  simp [h]

theorem two_pow_mem_positions {n k : Nat} (h : k < rmin n) : 2 ^ k ∈ positions n :=
  mem_positions.mpr ⟨Nat.one_le_two_pow, two_pow_le_of_lt_rmin h⟩

/-- The exponent of a parity position of 1..n is below rmin(n). -/
theorem lt_rmin_of_two_pow_le {n k : Nat} (h : 2 ^ k ≤ n) : k < rmin n := by
  have := Nat.lt_of_le_of_lt h (lt_two_pow_rmin n)
  exact (Nat.pow_lt_pow_iff_right (by omega)).mp this

end Sys2Proof.Machine
end

