-- ==== Sys2Proof/Laws/Blocks.lean ====
section
/-! SUPPORT. What the five sub-blocks do: one lemma per block that says everything later proofs need of it. -/

namespace Sys2Proof.Machine

/-! ### Counting parity and data positions -/

theorem rmin_eq_of_between {n r : Nat} (h1 : n < 2 ^ r) (h2 : ∀ q, q < r → 2 ^ q ≤ n) : rmin n = r := by
  apply Nat.le_antisymm (rmin_le_of_lt_two_pow h1)
  by_contra hlt
  have := h2 (rmin n) (by omega)
  have := lt_two_pow_rmin n
  omega

/-- The parity count grows exactly at the parity positions. -/
theorem rmin_succ (n : Nat) : rmin (n + 1) = rmin n + if isPow2 (n + 1) then 1 else 0 := by
  split
  · next h =>
    obtain ⟨k, hk⟩ := (isPow2_iff (by omega)).mp h
    have hn : rmin n = k := by
      apply rmin_eq_of_between (by omega)
      intro q hq
      have : 2 ^ q < 2 ^ k := Nat.pow_lt_pow_right (by omega) hq
      omega
    rw [hn, hk]
    apply rmin_eq_of_between (Nat.pow_lt_pow_right (by omega) (by omega))
    intro q hq
    exact Nat.pow_le_pow_right (by omega) (by omega)
  · next h =>
    apply rmin_eq_of_between
    · have h1 := lt_two_pow_rmin n
      have h2 : n + 1 ≠ 2 ^ rmin n := fun e => h (e ▸ isPow2_two_pow _)
      show n + 1 < 2 ^ rmin n
      omega
    · intro q hq
      have := two_pow_le_of_lt_rmin (n := n) (k := q) hq
      omega

/-- Parity positions and data positions together are all positions. -/
theorem data_count (n : Nat) : ((positions n).filter fun pos => !isPow2 pos).length + rmin n = n := by
  induction n with
  | zero => rfl
  | succ n ih =>
    rw [positions_succ, List.filter_append, List.length_append, rmin_succ]
    cases h : isPow2 (n + 1) <;> simp [h] <;> omega

theorem data_count_eq {n k : Nat} (h : k + rmin n = n) :
    ((positions n).filter fun pos => !isPow2 pos).length = k := by
  have := data_count n
  omega

/-! ### hamming_encoder: interleaving -/

@[simp] theorem interleaveFrom_length (d : List Bool) (pos count : Nat) :
    (interleaveFrom d pos count).length = count := by
  induction count generalizing d pos with
  | zero => rfl
  | succ count ih => unfold interleaveFrom; split <;> simp [ih]

@[simp] theorem interleave_length (d : List Bool) (n : Nat) : (interleave d n).length = n :=
  interleaveFrom_length d 1 n

/-- Parity positions keep 0, and data position q takes the data bit whose index is the number of data
positions before it. -/
theorem interleaveFrom_getD (d : List Bool) (pos count i : Nat) (hi : i < count) :
    (interleaveFrom d pos count).getD i false
      = (!isPow2 (pos + i)
          && d.getD ((List.range' pos i).filter fun q => !isPow2 q).length false) := by
  induction count generalizing d pos i with
  | zero => omega
  | succ count ih =>
    unfold interleaveFrom
    cases i with
    | zero =>
      cases isPow2 pos <;> cases d <;> simp
    | succ i =>
      have hp : pos + (i + 1) = pos + 1 + i := by omega
      cases h : isPow2 pos with
      | true =>
        have := ih d (pos + 1) i (by omega)
        simpa [List.range'_succ, h, hp] using this
      | false =>
        have := ih d.tail (pos + 1) i (by omega)
        have ht : ∀ j, d.tail.getD j false = d.getD (j + 1) false := by
          intro j
          cases d <;> simp
        simpa [List.range'_succ, h, hp, ht] using this

theorem bitAt_interleave {d : List Bool} {n pos : Nat} (hp : pos ∈ positions n) :
    bitAt (interleave d n) pos
      = (!isPow2 pos && d.getD ((positions (pos - 1)).filter fun q => !isPow2 q).length false) := by
  have h := mem_positions.mp hp
  have := interleaveFrom_getD d 1 n (pos - 1) (by omega)
  rwa [show 1 + (pos - 1) = pos by omega] at this

/-! ### The data extractor -/

/-- The extractor reads the data positions in increasing order. -/
theorem extractFrom_eq (w : List Bool) (pos : Nat) :
    extractFrom w pos
      = ((List.range' pos w.length).filter fun q => !isPow2 q).map fun q => w.getD (q - pos) false := by
  induction w generalizing pos with
  | nil => rfl
  | cons b w ih =>
    have hshift : ∀ q ∈ (List.range' (pos + 1) w.length).filter (fun q => !isPow2 q),
        w.getD (q - (pos + 1)) false = (b :: w).getD (q - pos) false := by
      intro q hq
      have := (List.mem_range'_1.mp (List.mem_of_mem_filter hq)).1
      rw [show q - pos = (q - (pos + 1)) + 1 by omega]
      simp
    unfold extractFrom
    rw [ih, List.map_congr_left hshift, List.length_cons, List.range'_succ]
    cases h : isPow2 pos <;> simp [h]

theorem extract_eq {w : List Bool} {n : Nat} (hw : w.length = n) :
    extract w n = ((positions n).filter fun pos => !isPow2 pos).map (bitAt w) := by
  rw [extract, List.take_of_length_le (by omega), extractFrom_eq, hw]
  rfl

/-- Only the data positions of a word matter to the extractor. -/
theorem extract_congr {w w' : List Bool} {n : Nat} (hw : w.length = n) (hw' : w'.length = n)
    (h : ∀ pos ∈ positions n, isPow2 pos = false → bitAt w pos = bitAt w' pos) :
    extract w n = extract w' n := by
  rw [extract_eq hw, extract_eq hw']
  apply List.map_congr_left
  intro pos hp
  rw [List.mem_filter] at hp
  exact h pos hp.1 (by simpa using hp.2)

theorem extractFrom_interleaveFrom (d : List Bool) (pos count : Nat)
    (hd : ((List.range' pos count).filter fun q => !isPow2 q).length = d.length) :
    extractFrom (interleaveFrom d pos count) pos = d := by
  induction count generalizing d pos with
  | zero =>
    have : d = [] := List.eq_nil_of_length_eq_zero hd.symm
    simp [this, interleaveFrom, extractFrom]
  | succ count ih =>
    unfold interleaveFrom
    cases h : isPow2 pos with
    | true =>
      simp only [if_true, extractFrom, h]
      exact ih d (pos + 1) (by simpa [List.range'_succ, h] using hd)
    | false =>
      cases d with
      | nil => simp [List.range'_succ, h] at hd
      | cons b d =>
        simp only [Bool.false_eq_true, if_false, extractFrom, h, List.headD_cons, List.tail_cons]
        rw [ih d (pos + 1) (by simpa [List.range'_succ, h] using hd)]

/-- The extractor undoes the interleaving. -/
theorem extract_interleave {d : List Bool} {n : Nat} (hd : d.length + rmin n = n) :
    extract (interleave d n) n = d := by
  rw [extract, List.take_of_length_le (by simp)]
  exact extractFrom_interleaveFrom d 1 n (data_count_eq hd)

/-! ### hamming_encoder: parity -/

@[simp] theorem parityRound_length (n : Nat) (c : List Bool) (k : Nat) :
    (parityRound n c k).length = c.length := by simp [parityRound]

/-- One parity round makes the parity over its own bit 0, leaves the parity over every other bit, and touches no
position but its own, if its own position held 0. -/
theorem parityRound_spec {n k : Nat} {c : List Bool} (hc : c.length = n) (hk : k < rmin n)
    (h0 : bitAt c (2 ^ k) = false) :
    (∀ j, parityOver (parityRound n c k) n (2 ^ j) = (decide (j ≠ k) && parityOver c n (2 ^ j)))
      ∧ (∀ pos ∈ positions n, pos ≠ 2 ^ k → bitAt (parityRound n c k) pos = bitAt c pos)
      ∧ bitAt (parityRound n c k) (2 ^ k) = parityOver c n (2 ^ k) := by
  have hmem := two_pow_mem_positions hk
  have hpos := mem_positions.mp hmem
  refine ⟨fun j => ?_, fun pos hp hne => ?_, ?_⟩
  · rw [parityRound, parityOver_setBit hc hmem, h0]
    by_cases h : j = k
    · subst h
      simp
    · simp [testBit_two_pow_other (Ne.symm h), h]
  · exact bitAt_setBit_other hpos.1 (mem_positions.mp hp).1 hne
  · exact bitAt_setBit_same hpos.1 (by omega)

/-- The rounds of a list of distinct parity indices, in any order, on a word whose parity positions hold 0:
each listed position takes the parity over the word, every other position keeps its bit, and the parity over
each listed bit becomes 0. -/
theorem parityRounds_spec {n : Nat} (ks : List Nat) (hnd : ks.Nodup) (hks : ∀ k ∈ ks, k < rmin n)
    {c : List Bool} (hc : c.length = n) (h0 : ∀ k ∈ ks, bitAt c (2 ^ k) = false) :
    (ks.foldl (parityRound n) c).length = n
      ∧ (∀ j, parityOver (ks.foldl (parityRound n) c) n (2 ^ j)
            = (decide (j ∉ ks) && parityOver c n (2 ^ j)))
      ∧ (∀ pos ∈ positions n, (∀ k ∈ ks, pos ≠ 2 ^ k) →
          bitAt (ks.foldl (parityRound n) c) pos = bitAt c pos)
      ∧ ∀ k ∈ ks, bitAt (ks.foldl (parityRound n) c) (2 ^ k) = parityOver c n (2 ^ k) := by
  induction ks generalizing c with
  | nil => exact ⟨hc, by simp, by simp, by simp⟩
  | cons k ks ih =>
    rw [List.nodup_cons] at hnd
    have hk := hks k (by simp)
    obtain ⟨hpar, hother, hself⟩ := parityRound_spec hc hk (h0 k (by simp))
    have hne : ∀ j ∈ ks, (2 : Nat) ^ j ≠ 2 ^ k := by
      intro j hj h
      have := Nat.pow_right_injective (le_refl 2) h
      exact hnd.1 (this ▸ hj)
    have hz : ∀ j ∈ ks, bitAt (parityRound n c k) (2 ^ j) = false := by
      intro j hj
      rw [hother _ (two_pow_mem_positions (hks j (by simp [hj]))) (hne j hj)]
      exact h0 j (by simp [hj])
    obtain ⟨i1, i2, i3, i4⟩ := ih hnd.2 (fun j hj => hks j (by simp [hj]))
      (c := parityRound n c k) (by simpa using hc) hz
    simp only [List.foldl_cons]
    refine ⟨i1, fun j => ?_, fun pos hp hfree => ?_, fun j hj => ?_⟩
    · rw [i2, hpar]
      by_cases h1 : j = k <;> by_cases h2 : j ∈ ks <;> simp [h1, h2]
    · rw [i3 pos hp fun j hj => hfree j (by simp [hj])]
      exact hother pos hp (hfree k (by simp))
    · rcases List.mem_cons.mp hj with rfl | hj'
      · rw [i3 _ (two_pow_mem_positions hk) fun q hq h => (hne q hq) h.symm, hself]
      · rw [i4 j hj', hpar]
        have : j ≠ k := fun h => hnd.1 (h ▸ hj')
        simp [this]

theorem bitAt_interleave_parity {d : List Bool} {n k : Nat} (hk : k < rmin n) :
    bitAt (interleave d n) (2 ^ k) = false := by
  rw [bitAt_interleave (two_pow_mem_positions hk), isPow2_two_pow]
  rfl

/-- What hamming_encoder makes: n positions, every parity over a bit below rmin(n) is 0, the data positions as
interleaved, and parity position 2^k the parity over the interleaved word. -/
theorem hammingEncoder_spec (d : List Bool) (n : Nat) :
    (hammingEncoder d n (rmin n)).length = n
      ∧ (∀ j, j < rmin n → parityOver (hammingEncoder d n (rmin n)) n (2 ^ j) = false)
      ∧ (∀ pos ∈ positions n, isPow2 pos = false →
          bitAt (hammingEncoder d n (rmin n)) pos = bitAt (interleave d n) pos)
      ∧ ∀ k, k < rmin n →
          bitAt (hammingEncoder d n (rmin n)) (2 ^ k) = parityOver (interleave d n) n (2 ^ k) := by
  obtain ⟨h1, h2, h3, h4⟩ := parityRounds_spec (n := n) (List.range (rmin n)) List.nodup_range
    (fun k hk => List.mem_range.mp hk) (c := interleave d n) (by simp)
    (fun k hk => bitAt_interleave_parity (List.mem_range.mp hk))
  refine ⟨h1, fun j hj => ?_, fun pos hp hpow => h3 pos hp fun k _ h => ?_, fun k hk => ?_⟩
  · rw [hammingEncoder, addParity, h2 j]
    simp [hj]
  · rw [h, isPow2_two_pow] at hpow
    cases hpow
  · exact h4 k (List.mem_range.mpr hk)

@[simp] theorem hammingEncoder_length (d : List Bool) (n : Nat) :
    (hammingEncoder d n (rmin n)).length = n := (hammingEncoder_spec d n).1

/-! ### hamming_syndrome_generator -/

theorem syndrome_succ (c : List Bool) (n r : Nat) :
    syndrome c n (r + 1) = syndromeRound c n (syndrome c n r) r := by
  simp [syndrome, List.range_succ]

/-- Bit k of the syndrome is the parity over bit k, below r; no other bit is set. -/
theorem syndrome_testBit (c : List Bool) (n r k : Nat) :
    (syndrome c n r).testBit k = (decide (k < r) && parityOver c n (2 ^ k)) := by
  induction r with
  | zero => simp [syndrome]
  | succ r ih =>
    rw [syndrome_succ, syndromeRound]
    by_cases h : k = r
    · subst h
      cases hp : parityOver c n (2 ^ k) <;> simp [ih, hp, Nat.testBit_or]
    · have : (k < r + 1) = (k < r) := by rw [eq_iff_iff]; omega
      cases hp : parityOver c n (2 ^ r) <;>
        simp [ih, Nat.testBit_or, Ne.symm h, this]

theorem syndrome_lt (c : List Bool) (n r : Nat) : syndrome c n r < 2 ^ r := by
  apply Nat.lt_pow_two_of_testBit
  intro k hk
  rw [syndrome_testBit]
  simp [Nat.not_lt.mpr hk]

/-- Two words have one syndrome when all their parities agree. -/
theorem syndrome_eq_of_parities {c c' : List Bool} {n r : Nat}
    (h : ∀ k, k < r → parityOver c n (2 ^ k) = parityOver c' n (2 ^ k)) :
    syndrome c n r = syndrome c' n r := by
  apply Nat.eq_of_testBit_eq
  intro k
  rw [syndrome_testBit, syndrome_testBit]
  by_cases hk : k < r
  · rw [h k hk]
  · simp [hk]

/-- Flipping a position exclusive-ors it into the syndrome. -/
theorem syndrome_flipAt {c : List Bool} {n p : Nat} (hc : c.length = n) (hp : p ∈ positions n) :
    syndrome (flipAt c p) n (rmin n) = syndrome c n (rmin n) ^^^ p := by
  apply Nat.eq_of_testBit_eq
  intro k
  rw [Nat.testBit_xor, syndrome_testBit, syndrome_testBit, parityOver_flipAt hc hp]
  by_cases hk : k < rmin n
  · simp [hk]
  · have : p < 2 ^ k := by
      have h1 := (mem_positions.mp hp).2
      have h2 := lt_two_pow_rmin n
      have h3 : 2 ^ rmin n ≤ 2 ^ k := Nat.pow_le_pow_right (by omega) (by omega)
      omega
    simp [hk, Nat.testBit_lt_two_pow this]

theorem flipAll_cons (c : List Bool) (p : Nat) (E : List Nat) :
    flipAll c (p :: E) = flipAll (flipAt c p) E := rfl

@[simp] theorem flipAll_length (c : List Bool) (E : List Nat) : (flipAll c E).length = c.length := by
  induction E generalizing c with
  | nil => rfl
  | cons p E ih => rw [flipAll_cons, ih, flipAt_length]

/-- A word with two flips of one position is as before. -/
theorem flipAt_flipAt {c : List Bool} {n p : Nat} (hc : c.length = n) (hp : p ∈ positions n) :
    flipAt (flipAt c p) p = c := by
  have h := mem_positions.mp hp
  apply codeword_ext (n := n) (by simpa using hc) hc
  intro q hq
  have hq' := mem_positions.mp hq
  by_cases he : q = p
  · subst he
    rw [flipAt, bitAt_setBit_same h.1 (by simp; omega), flipAt, bitAt_setBit_same h.1 (by omega)]
    simp
  · rw [flipAt, bitAt_setBit_other h.1 hq'.1 he, flipAt, bitAt_setBit_other h.1 hq'.1 he]

/-! ### error_corrector and hamming_decoder -/

/-- A syndrome of 0 changes nothing and sets no flag. -/
theorem correct_zero (c : List Bool) (n : Nat) : correct c n 0 = ⟨c, false, false⟩ := rfl

/-- A syndrome that names a position flips it. -/
theorem correct_position {c : List Bool} {n S : Nat} (h1 : 1 ≤ S) (h2 : S ≤ n) :
    correct c n S = ⟨flipAt c S, true, false⟩ := by
  have h0 : S ≠ 0 := by omega
  simp [correct, correctedWord, hadErrorFlag, uncorrectableFlag, h1, h2, h0]

/-- A syndrome beyond n flips nothing and sets both flags. -/
theorem correct_beyond {c : List Bool} {n S : Nat} (h : n < S) : correct c n S = ⟨c, true, true⟩ := by
  have h0 : S ≠ 0 := by omega
  have h2 : ¬ S ≤ n := by omega
  simp [correct, correctedWord, hadErrorFlag, uncorrectableFlag, h2, h0]

theorem uncorrectableFlag_eq (S n : Nat) : uncorrectableFlag S n = decide (n < S) := by
  rcases Nat.eq_zero_or_pos S with h | h
  · simp [uncorrectableFlag, h]
  · have h0 : S ≠ 0 := by omega
    have h1 : 1 ≤ S := h
    by_cases h2 : S ≤ n
    · simp [uncorrectableFlag, h1, h2]
    · have h3 : n < S := by omega
      simpa [uncorrectableFlag, h2, h3] using h0

end Sys2Proof.Machine
end

