-- ==== Sys2Proof/Laws/Encoding.lean ====
section
/-! SUPPORT. Bits of packed words: which field or lane each bit of a packed request or response belongs to. -/

namespace Sys2Proof

open Machine

/-- Bit i of a placed field. -/
theorem place_getLsbD (w lo len v i : Nat) :
    (place w lo len v).getLsbD i
      = (decide (i < w) && decide (lo ≤ i) && decide (i - lo < len) && v.testBit (i - lo)) := by
  unfold place
  rw [BitVec.getLsbD_shiftLeft, BitVec.getLsbD_setWidth, BitVec.getLsbD_ofNat]
  by_cases h1 : i < w <;> by_cases h2 : i < lo <;> by_cases h3 : i - lo < len <;>
    simp [h1, h2, h3, Nat.not_lt.mp, Nat.not_le.mpr]
  all_goals omega

/-- Bit k of a slice. -/
theorem slice_testBit {w : Nat} (v : BitVec w) (lo len k : Nat) :
    (slice v lo len).testBit k = (decide (k < len) && v.getLsbD (lo + k)) := by
  unfold slice
  rw [BitVec.testBit_toNat, BitVec.getLsbD_extractLsb']

theorem slice_lt {w : Nat} (v : BitVec w) (lo len : Nat) : slice v lo len < 2 ^ len := by
  unfold slice
  exact BitVec.isLt _

/-- A number below `2 ^ len` is its bits below len. -/
theorem eq_of_bits_below {a b len : Nat} (ha : a < 2 ^ len) (hb : b < 2 ^ len)
    (h : ∀ k, k < len → a.testBit k = b.testBit k) : a = b := by
  apply Nat.eq_of_testBit_eq
  intro k
  by_cases hk : k < len
  · exact h k hk
  · have : 2 ^ len ≤ 2 ^ k := Nat.pow_le_pow_right (by omega) (by omega)
    rw [Nat.testBit_lt_two_pow (by omega), Nat.testBit_lt_two_pow (by omega)]

/-- Bit i of packed symbol lanes belongs to one of the lanes. -/
theorem packLanes_getLsbD (nmax : Nat) (sym : List Symbol) (js : List Nat) (i : Nat) :
    (packLanes nmax sym js).getLsbD i
      = js.any fun j => (place (reqWidth nmax) (laneOffset nmax j) 8 (lane sym j).toNat).getLsbD i := by
  induction js with
  | nil => simp [packLanes]
  | cons j js ih =>
    have : packLanes nmax sym (j :: js)
        = place _ (laneOffset nmax j) 8 (lane sym j).toNat ||| packLanes nmax sym js := rfl
    rw [this, BitVec.getLsbD_or, ih, List.any_cons]

/-- Below the first lane no lane has a bit. -/
theorem packLanes_low (nmax : Nat) (sym : List Symbol) (js : List Nat) {i : Nat}
    (h : i < 3 * fieldWidth nmax + 2) : (packLanes nmax sym js).getLsbD i = false := by
  rw [packLanes_getLsbD, List.any_eq_false]
  intro j _
  have hl : ¬ laneOffset nmax j ≤ i := by unfold laneOffset; omega
  simp [place_getLsbD, hl]

/-- Bit b of lane j, among all lanes. -/
theorem packLanes_lane (nmax : Nat) (sym : List Symbol) {j b : Nat} (hj : j < nmax) (hb : b < 8) :
    (packLanes nmax sym (List.range nmax)).getLsbD (laneOffset nmax j + b)
      = (lane sym j).getLsbD b := by
  rw [packLanes_getLsbD]
  have hw : laneOffset nmax j + b < reqWidth nmax := by unfold laneOffset reqWidth; omega
  have hself : (place (reqWidth nmax) (laneOffset nmax j) 8 (lane sym j).toNat).getLsbD
      (laneOffset nmax j + b) = (lane sym j).getLsbD b := by
    rw [place_getLsbD, Nat.add_sub_cancel_left, BitVec.testBit_toNat]
    simp [hw, hb]
  cases h : (lane sym j).getLsbD b with
  | true =>
    rw [List.any_eq_true]
    exact ⟨j, List.mem_range.mpr hj, hself.trans h⟩
  | false =>
    rw [List.any_eq_false]
    intro k _
    by_cases hk : k = j
    · subst hk
      simp [hself, h]
    · have : ¬ (laneOffset nmax k ≤ laneOffset nmax j + b
          ∧ laneOffset nmax j + b - laneOffset nmax k < 8) := by
        unfold laneOffset
        omega
      rw [place_getLsbD]
      intro hc
      simp only [Bool.and_eq_true, decide_eq_true_iff] at hc
      exact this ⟨hc.1.1.2, hc.1.2⟩

/-- An operation is its bundle. -/
theorem decodeRequest_toRequest (i : Instr) : decodeRequest i.toRequest = i := by
  cases i <;> simp [Instr.toRequest, decodeRequest, Instr.opCode, Instr.operands]

/-- A bundle is its operation: all four op values are taken. -/
theorem toRequest_decodeRequest (r : Request) : (decodeRequest r).toRequest = r := by
  have h4 : ∀ op : OpCode, op = 0b00#2 ∨ op = 0b01#2 ∨ op = 0b10#2 ∨ op = 0b11#2 := by decide
  obtain ⟨x, op⟩ := r
  rcases h4 op with rfl | rfl | rfl | rfl <;>
    simp [decodeRequest, Instr.toRequest, Instr.opCode, Instr.operands]

/-- Well-formed means that the pins can carry the bundle. -/
theorem wellFormed_iff_fits (nmax : Nat) (i : Instr) :
    i.wellFormed nmax = true ↔ RequestFits nmax i.toRequest := by
  simp only [Instr.wellFormed, Operands.wellFormed, RequestFits, Instr.toRequest, Bool.and_eq_true,
    decide_eq_true_iff, and_assoc]

/-- The fields of every packed request fit. -/
theorem unpackRequest_fits (nmax : Nat) (v : BitVec (reqWidth nmax)) :
    RequestFits nmax (unpackRequest nmax v) :=
  ⟨slice_lt _ _ _, slice_lt _ _ _, slice_lt _ _ _, by simp [unpackRequest]⟩

/-! ### Bytes -/

theorem natOfBytes_bytesOfNat (k v : Nat) : natOfBytes (bytesOfNat k v) = v % 256 ^ k := by
  induction k generalizing v with
  | zero => simp [bytesOfNat, natOfBytes, Nat.mod_one]
  | succ k ih =>
    have h8 : (2 : Nat) ^ 8 = 256 := rfl
    simp only [bytesOfNat, natOfBytes, ih, BitVec.toNat_ofNat]
    rw [h8, Nat.pow_succ, Nat.mul_comm (256 ^ k), Nat.mod_mul]

@[simp] theorem bytesOfNat_length (k v : Nat) : (bytesOfNat k v).length = k := by
  induction k generalizing v with
  | zero => rfl
  | succ k ih => simp [bytesOfNat, ih]

/-! ### Packed responses -/

@[simp] theorem statusOfCode_statusCode (st : Status) : statusOfCode (statusCode st) = st := by
  cases st <;> rfl

@[simp] theorem statusCode_statusOfCode : ∀ c : BitVec 2, statusCode (statusOfCode c) = c := by decide

theorem bool_testBit (b : Bool) (k : Nat) : b.toNat.testBit k = (decide (k = 0) && b) := by
  cases b <;> cases k <;> simp [Nat.testBit_succ]

/-- Bit i of a placed field, for a bit of the word. -/
theorem place_getLsbD_of_lt {w i : Nat} (hi : i < w) (lo len v : Nat) :
    (place w lo len v).getLsbD i = (decide (lo ≤ i) && decide (i < lo + len) && v.testBit (i - lo)) := by
  rw [place_getLsbD]
  by_cases h : lo ≤ i
  · have : (i - lo < len) = (i < lo + len) := by rw [eq_iff_iff]; omega
    simp [h, hi, this]
  · simp [h]

/-- Bit i of a placed flag. -/
theorem place_flag {w i : Nat} (hi : i < w) (lo : Nat) (b : Bool) :
    (place w lo 1 b.toNat).getLsbD i = (decide (i = lo) && b) := by
  rw [place_getLsbD_of_lt hi, bool_testBit]
  by_cases h : i = lo
  · simp [h]
  · by_cases h2 : lo ≤ i
    · simp [h, show ¬ i < lo + 1 by omega]
    · simp [h, h2]

/-- Bit i of packed bit lanes belongs to one of the lanes. -/
theorem packBits_getLsbD (nmax : Nat) (bits : List Bool) (lanes : List Nat) (i : Nat) :
    (packBits nmax bits lanes).getLsbD i
      = lanes.any fun j =>
          (place (respWidth nmax) (fieldWidth nmax + 4 + j) 1 (bits.getD j false).toNat).getLsbD i := by
  induction lanes with
  | nil => simp [packBits]
  | cons j js ih =>
    have : packBits nmax bits (j :: js)
        = place _ (fieldWidth nmax + 4 + j) 1 (bits.getD j false).toNat ||| packBits nmax bits js := rfl
    rw [this, BitVec.getLsbD_or, ih, List.any_cons]

/-- Bit i of all packed bit lanes. -/
theorem packBits_all (nmax : Nat) (bits : List Bool) {i : Nat} (hi : i < respWidth nmax) :
    (packBits nmax bits (List.range nmax)).getLsbD i
      = (decide (fieldWidth nmax + 4 ≤ i) && decide (i < fieldWidth nmax + 4 + nmax)
          && bits.getD (i - (fieldWidth nmax + 4)) false) := by
  rw [packBits_getLsbD, Bool.eq_iff_iff, List.any_eq_true]
  simp only [place_flag hi, Bool.and_eq_true, decide_eq_true_iff, List.mem_range]
  constructor
  · rintro ⟨j, hj, rfl, h⟩
    refine ⟨⟨by omega, by omega⟩, ?_⟩
    rwa [Nat.add_sub_cancel_left]
  · rintro ⟨⟨h1, h2⟩, h3⟩
    exact ⟨i - (fieldWidth nmax + 4), by omega, by omega, h3⟩

/-- Bit i of a packed response: the field it belongs to. -/
theorem packResponse_getLsbD (nmax : Nat) (p : Response) {i : Nat} (hi : i < respWidth nmax) :
    (packResponse nmax p).getLsbD i
      = (decide (i < 2) && (statusCode p.status).getLsbD i
        || (decide (2 ≤ i) && decide (i < 4) && p.op.getLsbD (i - 2))
        || (decide (4 ≤ i) && decide (i < fieldWidth nmax + 4) && p.len.testBit (i - 4))
        || (decide (fieldWidth nmax + 4 ≤ i) && decide (i < fieldWidth nmax + 4 + nmax)
            && p.bits.getD (i - (fieldWidth nmax + 4)) false)
        || (decide (fieldWidth nmax + 4 + nmax ≤ i) && decide (i < respBase nmax)
            && p.r.testBit (i - (fieldWidth nmax + 4 + nmax)))
        || (decide (respBase nmax ≤ i) && decide (i < respBase nmax + rmax nmax)
            && p.syndrome.testBit (i - respBase nmax))
        || (decide (i = respBase nmax + rmax nmax) && p.hadError)
        || (decide (i = respBase nmax + rmax nmax + 1) && p.uncorrectable)
        || (decide (i = respBase nmax + rmax nmax + 2) && p.isValid)) := by
  simp only [packResponse, BitVec.getLsbD_or, place_flag hi, packBits_all nmax p.bits hi]
  simp only [place_getLsbD_of_lt hi, BitVec.testBit_toNat]
  have : fieldWidth nmax + 4 + nmax + rrw nmax = respBase nmax := rfl
  rw [this, Nat.add_comm 4 (fieldWidth nmax)]
  simp

end Sys2Proof
end

