-- ==== Sys2Proof/Laws/PerInstr.lean ====
section
/-! SUPPORT. Statements made for each operation as syntax. Family OpField: the bundle that presents an operation
carries the op value of 30_encoding.md R41 and is decoded to the operation itself. -/

namespace Sys2Proof.Laws.OpField

/-- The op field is the table's, the operand fields are the operation's, and the bundle is decoded to the
operation. -/
def Statement (i : Instr) : Prop :=
  i.toRequest.op
      = (match i with
        | .encode _ => 0#2
        | .decode _ => 1#2
        | .isvalid _ => 2#2
        | .reserved _ => 3#2)
    ∧ i.toRequest.toOperands = i.operands ∧ decodeRequest i.toRequest = i

theorem encode (x : Operands) : Statement (.encode x) := ⟨rfl, rfl, decodeRequest_toRequest _⟩

theorem decode (x : Operands) : Statement (.decode x) := ⟨rfl, rfl, decodeRequest_toRequest _⟩

theorem isvalid (x : Operands) : Statement (.isvalid x) := ⟨rfl, rfl, decodeRequest_toRequest _⟩

theorem reserved (x : Operands) : Statement (.reserved x) := ⟨rfl, rfl, decodeRequest_toRequest _⟩

end Sys2Proof.Laws.OpField
end

