-- ==== Sys2Proof/Laws/State.lean ====
section
/-! SUPPORT. One lemma per field per update of State, and the fields of the reset state: no later proof unfolds
a record update. -/

namespace Sys2Proof.Machine

@[simp] theorem State.complete_cfg (s : State) (p : Response) : (s.complete p).cfg = s.cfg := rfl
@[simp] theorem State.complete_initialised (s : State) (p : Response) :
    (s.complete p).initialised = s.initialised := rfl
@[simp] theorem State.complete_phase (s : State) (p : Response) : (s.complete p).phase = .full := rfl
@[simp] theorem State.complete_wait (s : State) (p : Response) : (s.complete p).wait = 0 := rfl
@[simp] theorem State.complete_req (s : State) (p : Response) : (s.complete p).req = s.req := rfl
@[simp] theorem State.complete_resp (s : State) (p : Response) : (s.complete p).resp = p := rfl
@[simp] theorem State.complete_script (s : State) (p : Response) : (s.complete p).script = s.script := rfl
@[simp] theorem State.complete_draws (s : State) (p : Response) : (s.complete p).draws = s.draws := rfl

@[simp] theorem State.accept_cfg (s : State) (r : Request) : (s.accept r).cfg = s.cfg := rfl
@[simp] theorem State.accept_initialised (s : State) (r : Request) :
    (s.accept r).initialised = s.initialised := rfl
@[simp] theorem State.accept_phase (s : State) (r : Request) : (s.accept r).phase = .busy := rfl
@[simp] theorem State.accept_wait (s : State) (r : Request) :
    (s.accept r).wait = latency s.cfg.nmax s.draws (fitRequest s.cfg.nmax r) := rfl
@[simp] theorem State.accept_req (s : State) (r : Request) : (s.accept r).req = fitRequest s.cfg.nmax r := rfl
@[simp] theorem State.accept_resp (s : State) (r : Request) : (s.accept r).resp = s.resp := rfl
@[simp] theorem State.accept_script (s : State) (r : Request) : (s.accept r).script = s.script := rfl
@[simp] theorem State.accept_draws (s : State) (r : Request) : (s.accept r).draws = s.draws + 1 := rfl

@[simp] theorem State.waitEdge_cfg (s : State) : (s.waitEdge).cfg = s.cfg := rfl
@[simp] theorem State.waitEdge_initialised (s : State) : (s.waitEdge).initialised = s.initialised := rfl
@[simp] theorem State.waitEdge_phase (s : State) : (s.waitEdge).phase = s.phase := rfl
@[simp] theorem State.waitEdge_wait (s : State) : (s.waitEdge).wait = s.wait - 1 := rfl
@[simp] theorem State.waitEdge_req (s : State) : (s.waitEdge).req = s.req := rfl
@[simp] theorem State.waitEdge_resp (s : State) : (s.waitEdge).resp = s.resp := rfl
@[simp] theorem State.waitEdge_script (s : State) : (s.waitEdge).script = s.script := rfl
@[simp] theorem State.waitEdge_draws (s : State) : (s.waitEdge).draws = s.draws := rfl

@[simp] theorem State.resetEdge_cfg (s : State) : (s.resetEdge).cfg = s.cfg := rfl
@[simp] theorem State.resetEdge_initialised (s : State) : (s.resetEdge).initialised = true := rfl
@[simp] theorem State.resetEdge_phase (s : State) : (s.resetEdge).phase = .empty := rfl
@[simp] theorem State.resetEdge_wait (s : State) : (s.resetEdge).wait = 0 := rfl
@[simp] theorem State.resetEdge_req (s : State) : (s.resetEdge).req = zeroRequest s.cfg.nmax := rfl
@[simp] theorem State.resetEdge_resp (s : State) : (s.resetEdge).resp = zeroResponse s.cfg.nmax := rfl
@[simp] theorem State.resetEdge_script (s : State) : (s.resetEdge).script = s.script := rfl
@[simp] theorem State.resetEdge_draws (s : State) : (s.resetEdge).draws = s.draws := rfl

@[simp] theorem State.afterDrive_cfg (s : State) : (s.afterDrive).cfg = s.cfg := rfl
@[simp] theorem State.afterDrive_initialised (s : State) : (s.afterDrive).initialised = s.initialised := rfl
@[simp] theorem State.afterDrive_phase (s : State) : (s.afterDrive).phase = s.phase := rfl
@[simp] theorem State.afterDrive_wait (s : State) : (s.afterDrive).wait = s.wait := rfl
@[simp] theorem State.afterDrive_req (s : State) : (s.afterDrive).req = s.req := rfl
@[simp] theorem State.afterDrive_resp (s : State) : (s.afterDrive).resp = s.resp := rfl
@[simp] theorem State.afterDrive_script (s : State) :
    (s.afterDrive).script = (hostEdge s.cfg.nmax s.hostPhase s.script).2 := rfl
@[simp] theorem State.afterDrive_draws (s : State) : (s.afterDrive).draws = s.draws := rfl

@[simp] theorem State.withLatched_cfg (s : State) (v : BitVec (reqWidth s.cfg.nmax)) :
    (s.withLatched v).cfg = s.cfg := rfl
@[simp] theorem State.withLatched_initialised (s : State) (v : BitVec (reqWidth s.cfg.nmax)) :
    (s.withLatched v).initialised = true := rfl
@[simp] theorem State.withLatched_phase (s : State) (v : BitVec (reqWidth s.cfg.nmax)) :
    (s.withLatched v).phase = .busy := rfl
@[simp] theorem State.withLatched_wait (s : State) (v : BitVec (reqWidth s.cfg.nmax)) :
    (s.withLatched v).wait = 1 := rfl
@[simp] theorem State.withLatched_req (s : State) (v : BitVec (reqWidth s.cfg.nmax)) :
    (s.withLatched v).req = unpackRequest s.cfg.nmax v := rfl
@[simp] theorem State.withLatched_resp (s : State) (v : BitVec (reqWidth s.cfg.nmax)) :
    (s.withLatched v).resp = s.resp := rfl
@[simp] theorem State.withLatched_script (s : State) (v : BitVec (reqWidth s.cfg.nmax)) :
    (s.withLatched v).script = .drive (Pins.idle s.cfg.nmax) :: s.script := rfl
@[simp] theorem State.withLatched_draws (s : State) (v : BitVec (reqWidth s.cfg.nmax)) :
    (s.withLatched v).draws = s.draws := rfl

@[simp] theorem State.resetOf_cfg (cfg : Config) : (State.resetOf cfg).cfg = cfg := rfl
@[simp] theorem State.resetOf_initialised (cfg : Config) : (State.resetOf cfg).initialised = true := rfl
@[simp] theorem State.resetOf_phase (cfg : Config) : (State.resetOf cfg).phase = .empty := rfl
@[simp] theorem State.resetOf_wait (cfg : Config) : (State.resetOf cfg).wait = 0 := rfl
@[simp] theorem State.resetOf_req (cfg : Config) : (State.resetOf cfg).req = zeroRequest cfg.nmax := rfl
@[simp] theorem State.resetOf_resp (cfg : Config) : (State.resetOf cfg).resp = zeroResponse cfg.nmax := rfl
@[simp] theorem State.resetOf_script (cfg : Config) : (State.resetOf cfg).script = [] := rfl
@[simp] theorem State.resetOf_draws (cfg : Config) : (State.resetOf cfg).draws = 0 := rfl

end Sys2Proof.Machine
end

