-- ==== Sys2Proof/Laws/Respond.lean ====
section
/-! SUPPORT. What a Complete does: exec as one equation, the three outcomes of each operation, and the fields of a
response. -/

namespace Sys2Proof.Machine

/-- Every operation's meaning is a Complete with the response to it. -/
theorem exec_eq (i : Instr) (s : State) :
    exec i s = .next (s.complete (respondTo s.cfg.nmax i)) := by
  cases i <;> rfl

theorem exec_next {i : Instr} {s t : State} (h : exec i s = .next t) :
    t = s.complete (respondTo s.cfg.nmax i) := by
  rw [exec_eq] at h
  injection h with h
  exact h.symm

/-! ### Lanes -/

@[simp] theorem fillLanes_length (nmax len : Nat) (bits : List Bool) :
    (fillLanes nmax len bits).length = nmax := by simp [fillLanes]

theorem fillLanes_getD (nmax len : Nat) (bits : List Bool) (i : Nat) :
    (fillLanes nmax len bits).getD i false
      = (decide (i < nmax) && (decide (i < len) && bits.getD i false)) := by
  by_cases h : i < nmax <;> simp [fillLanes, h]

/-- A result of the stated length fills the low lanes, and the others are 0. -/
theorem fillLanes_eq {nmax len : Nat} {bits : List Bool} (h : bits.length = len) (hn : len ≤ nmax) :
    fillLanes nmax len bits = bits ++ List.replicate (nmax - len) false := by
  apply List.ext_getElem (by simp; omega)
  intro i hi _
  have hi' : i < nmax := by simpa using hi
  by_cases hl : i < len
  · simp [fillLanes, hl, List.getElem_append_left (h ▸ hl), h]
  · simp [fillLanes, hl, List.getElem_append_right (by omega : bits.length ≤ i)]

theorem fillLanes_none (nmax : Nat) : fillLanes nmax 0 [] = List.replicate nmax false := by
  simpa using fillLanes_eq (nmax := nmax) (len := 0) (bits := []) rfl (by omega)

/-! ### The outcomes -/

theorem encodeOutcome_badInput {nmax : Nat} {x : Operands} (h : ¬ InputGood nmax x x.m) :
    encodeOutcome nmax x = .raise .invalidInput := by
  rw [← inputOk_iff_good] at h
  simp [encodeOutcome, h]

theorem encodeOutcome_badParams {nmax : Nat} {x : Operands} (h : InputGood nmax x x.m)
    (hp : ¬ EncodeParamsGood nmax x.m x.n) : encodeOutcome nmax x = .raise .invalidParameters := by
  rw [← inputOk_iff_good] at h
  rw [← paramsOkEncode_iff_good] at hp
  simp [encodeOutcome, h, hp]

theorem encodeOutcome_good {nmax : Nat} {x : Operands} (h : InputGood nmax x x.m)
    (hp : EncodeParamsGood nmax x.m x.n) :
    encodeOutcome nmax x
      = .success { len := x.n, bits := hammingEncoder (laneBits x x.m) x.n (x.n - x.m) } := by
  rw [← inputOk_iff_good] at h
  rw [← paramsOkEncode_iff_good] at hp
  simp [encodeOutcome, h, hp]

theorem decodeOutcome_badInput {nmax : Nat} {x : Operands} (h : ¬ InputGood nmax x x.n) :
    decodeOutcome nmax x = .raise .invalidInput := by
  rw [← inputOk_iff_good] at h
  simp [decodeOutcome, h]

theorem decodeOutcome_badParams {nmax : Nat} {x : Operands} (h : InputGood nmax x x.n)
    (hp : ¬ DecodeParamsGood nmax x.n) : decodeOutcome nmax x = .raise .invalidParameters := by
  rw [← inputOk_iff_good] at h
  rw [← paramsOkDecode_iff_good] at hp
  simp [decodeOutcome, h, hp]

theorem decodeOutcome_good {nmax : Nat} {x : Operands} (h : InputGood nmax x x.n)
    (hp : DecodeParamsGood nmax x.n) :
    decodeOutcome nmax x = .success (hammingDecoder (laneBits x x.n) x.n) := by
  rw [← inputOk_iff_good] at h
  rw [← paramsOkDecode_iff_good] at hp
  simp [decodeOutcome, h, hp]

theorem isvalidOutcome_badInput {nmax : Nat} {x : Operands} (h : ¬ InputGood nmax x x.n) :
    isvalidOutcome nmax x = .raise .invalidInput := by
  rw [← inputOk_iff_good] at h
  simp [isvalidOutcome, h]

theorem isvalidOutcome_badParams {nmax : Nat} {x : Operands} (h : InputGood nmax x x.n)
    (hp : ¬ DecodeParamsGood nmax x.n) : isvalidOutcome nmax x = .raise .invalidParameters := by
  rw [← inputOk_iff_good] at h
  rw [← paramsOkDecode_iff_good] at hp
  simp [isvalidOutcome, h, hp]

theorem isvalidOutcome_good {nmax : Nat} {x : Operands} (h : InputGood nmax x x.n)
    (hp : DecodeParamsGood nmax x.n) :
    isvalidOutcome nmax x = .success (parityChecker (laneBits x x.n) x.n) := by
  rw [← inputOk_iff_good] at h
  rw [← paramsOkDecode_iff_good] at hp
  simp [isvalidOutcome, h, hp]

/-- The two outcomes of R81 for each operation: an error it can raise, or success with good operands. -/
theorem outcomeOf_cases (nmax : Nat) (i : Instr) :
    (∃ e, outcomeOf nmax i = .raise e ∧ (e = .illegalOp ↔ ∃ x, i = .reserved x))
      ∨ (∃ x, i = .encode x ∧ InputGood nmax x x.m ∧ EncodeParamsGood nmax x.m x.n
          ∧ outcomeOf nmax i
              = .success { len := x.n, bits := hammingEncoder (laneBits x x.m) x.n (x.n - x.m) })
      ∨ (∃ x, i = .decode x ∧ InputGood nmax x x.n ∧ DecodeParamsGood nmax x.n
          ∧ outcomeOf nmax i = .success (hammingDecoder (laneBits x x.n) x.n))
      ∨ (∃ x, i = .isvalid x ∧ InputGood nmax x x.n ∧ DecodeParamsGood nmax x.n
          ∧ outcomeOf nmax i = .success (parityChecker (laneBits x x.n) x.n)) := by
  cases i with
  | encode x =>
    by_cases h : InputGood nmax x x.m
    · by_cases hp : EncodeParamsGood nmax x.m x.n
      · exact .inr (.inl ⟨x, rfl, h, hp, encodeOutcome_good h hp⟩)
      · exact .inl ⟨_, encodeOutcome_badParams h hp, by simp⟩
    · exact .inl ⟨_, encodeOutcome_badInput h, by simp⟩
  | decode x =>
    by_cases h : InputGood nmax x x.n
    · by_cases hp : DecodeParamsGood nmax x.n
      · exact .inr (.inr (.inl ⟨x, rfl, h, hp, decodeOutcome_good h hp⟩))
      · exact .inl ⟨_, decodeOutcome_badParams h hp, by simp⟩
    · exact .inl ⟨_, decodeOutcome_badInput h, by simp⟩
  | isvalid x =>
    by_cases h : InputGood nmax x x.n
    · by_cases hp : DecodeParamsGood nmax x.n
      · exact .inr (.inr (.inr ⟨x, rfl, h, hp, isvalidOutcome_good h hp⟩))
      · exact .inl ⟨_, isvalidOutcome_badParams h hp, by simp⟩
    · exact .inl ⟨_, isvalidOutcome_badInput h, by simp⟩
  | reserved x => exact .inl ⟨_, rfl, by simp⟩

/-- The length of the codeword that a good ENCODE makes. -/
theorem encoded_length {nmax : Nat} {x : Operands} (hp : EncodeParamsGood nmax x.m x.n) :
    (hammingEncoder (laneBits x x.m) x.n (x.n - x.m)).length = x.n := by
  have : x.n - x.m = rmin x.n := by have := hp.2.2.2; omega
  rw [this, hammingEncoder_length]

@[simp] theorem correctedWord_length (c : List Bool) (n S : Nat) :
    (correctedWord c n S).length = c.length := by
  unfold correctedWord
  split <;> simp

/-- The length of the data word that the decoder extracts. -/
theorem decoded_length {c : List Bool} {n : Nat} (hc : c.length = n) :
    (hammingDecoder c n).bits.length = n - rmin n := by
  have h := data_count n
  have hlen : (correctedWord c n (syndrome c n (rmin n))).length = n := by simpa using hc
  simp only [hammingDecoder, correct]
  rw [extract_eq hlen, List.length_map]
  omega

/-! ### The fields of a response -/

theorem zeroRequest_fits (nmax : Nat) : RequestFits nmax (zeroRequest nmax) :=
  ⟨Nat.two_pow_pos _, Nat.two_pow_pos _, Nat.two_pow_pos _, by simp [zeroRequest]⟩

theorem zeroResponse_fits (nmax : Nat) : ResponseFits nmax (zeroResponse nmax) :=
  ⟨Nat.two_pow_pos _, by simp [zeroResponse], Nat.two_pow_pos _, Nat.two_pow_pos _⟩

theorem zeroResponse_coherent (nmax : Nat) : ResponseCoherent nmax (zeroResponse nmax) := by
  refine ⟨fun i hi _ => ?_, ?_, ?_, ?_, ?_⟩
  · simp [zeroResponse, hi]
  all_goals simp [zeroResponse]

/-- Every response fits its widths. -/
theorem respondTo_fits (nmax : Nat) (i : Instr) : ResponseFits nmax (respondTo nmax i) := by
  have hN : nmax < 2 ^ fieldWidth nmax := lt_two_pow_bitlength nmax
  rcases outcomeOf_cases nmax i with ⟨e, he, -⟩ | ⟨x, rfl, _, hp, he⟩ | ⟨x, rfl, _, hp, he⟩
    | ⟨x, rfl, _, hp, he⟩ <;> rw [respondTo, he]
  · obtain ⟨a, b, c, d⟩ := zeroResponse_fits nmax
    exact ⟨a, b, c, d⟩
  · refine ⟨?_, by simp [respond], Nat.two_pow_pos _, Nat.two_pow_pos _⟩
    exact Nat.lt_of_le_of_lt hp.1 hN
  · have hm : rmin x.n ≤ rmax nmax := rmin_mono hp.2
    refine ⟨?_, by simp [respond], ?_, ?_⟩
    · exact Nat.lt_of_le_of_lt (Nat.le_trans (Nat.sub_le _ _) hp.2) hN
    · exact Nat.lt_of_le_of_lt hm (lt_two_pow_bitlength _)
    · exact Nat.lt_of_lt_of_le (syndrome_lt _ _ _) (Nat.pow_le_pow_right (by omega) hm)
  · refine ⟨Nat.two_pow_pos _, by simp [respond], Nat.two_pow_pos _, ?_⟩
    exact Nat.lt_of_lt_of_le (syndrome_lt _ _ _) (Nat.pow_le_pow_right (by omega) (rmin_mono hp.2))

/-- Every lane at or above len of a success is 0. -/
theorem respond_lanes (nmax : Nat) (op : OpCode) (f : Result) {k : Nat} (h : f.len ≤ k) :
    (respond nmax op (.success f)).bits.getD k false = false := by
  show (fillLanes _ _ _).getD k false = false
  rw [fillLanes_getD]
  simp [Nat.not_lt.mpr h]

end Sys2Proof.Machine
end

