-- ==== Sys2Proof/Laws/Step.lean ====
section
/-! SUPPORT. One edge: what the step answers for each event, and one inversion lemma that says everything a step
can do. -/

namespace Sys2Proof.Machine

theorem step_of_resets {s : State} (h : s.Resets) : step s = .next s.afterDrive.resetEdge := by
  unfold step State.risingEdge
  rw [if_pos h]

theorem step_beforeFirstReset {s : State} (h : s.initialised = false) (hr : ¬ s.Resets) :
    step s = .fault .beforeFirstReset := by
  unfold step State.risingEdge
  rw [if_neg hr]
  simp [h]

/-- At a Complete edge the step is exec of the latched request's operation. -/
theorem step_of_completes_exec {s : State} (h : s.Completes) :
    step s = exec (decodeRequest s.req) s.afterDrive := by
  obtain ⟨h1, h2, h3, h4⟩ := h
  unfold step State.risingEdge
  rw [if_neg (by simp [h2]), if_neg (by simp [h1])]
  simp [h3, h4]

theorem step_of_completes {s : State} (h : s.Completes) :
    step s = .next (s.afterDrive.complete (respondTo s.cfg.nmax (decodeRequest s.req))) := by
  rw [step_of_completes_exec h, exec_eq]
  rfl

theorem step_of_accepts {s : State} (h : s.Accepts) :
    step s = .next (s.afterDrive.accept s.pins.req) := by
  obtain ⟨h1, h2, h3, h4⟩ := h
  unfold step State.risingEdge
  rw [if_neg (by simp [h2]), if_neg (by simp [h1])]
  cases hp : s.phase with
  | busy => exact absurd hp h3
  | empty => simp [h4]
  | full => simp [h4]

theorem step_of_waiting {s : State} (h1 : s.initialised = true) (h2 : ¬ s.Resets)
    (h3 : s.phase = .busy) (h4 : 1 < s.wait) : step s = .next s.afterDrive.waitEdge := by
  unfold step State.risingEdge
  rw [if_neg h2, if_neg (by simp [h1])]
  simp [h3, Nat.not_le.mpr h4]

theorem step_of_idle {s : State} (h1 : s.initialised = true) (h2 : ¬ s.Resets)
    (h3 : s.phase ≠ .busy) (h4 : s.pins.reqValid = false) : step s = .next s.afterDrive := by
  unfold step State.risingEdge
  rw [if_neg h2, if_neg (by simp [h1])]
  cases hp : s.phase with
  | busy => exact absurd hp h3
  | empty => simp [h4]
  | full => simp [h4]

/-- Everything an edge can be: a fault before the first Reset, a Reset, a Complete, an Accept, an edge of waiting,
or nothing. -/
theorem step_cases (s : State) :
    (s.initialised = false ∧ ¬ s.Resets ∧ step s = .fault .beforeFirstReset)
      ∨ (s.Resets ∧ step s = .next s.afterDrive.resetEdge)
      ∨ (s.Completes
          ∧ step s = .next (s.afterDrive.complete (respondTo s.cfg.nmax (decodeRequest s.req))))
      ∨ (s.Accepts ∧ step s = .next (s.afterDrive.accept s.pins.req))
      ∨ (s.initialised = true ∧ ¬ s.Resets ∧ s.phase = .busy ∧ 1 < s.wait
          ∧ step s = .next s.afterDrive.waitEdge)
      ∨ (s.initialised = true ∧ ¬ s.Resets ∧ s.phase ≠ .busy ∧ s.pins.reqValid = false
          ∧ step s = .next s.afterDrive) := by
  by_cases hr : s.Resets
  · exact .inr (.inl ⟨hr, step_of_resets hr⟩)
  have hr' : s.pins.rst = false := by simpa using hr
  by_cases hi : s.initialised = true
  · by_cases hb : s.phase = .busy
    · by_cases hw : s.wait ≤ 1
      · exact .inr (.inr (.inl ⟨⟨hi, hr', hb, hw⟩, step_of_completes ⟨hi, hr', hb, hw⟩⟩))
      · have hw' : 1 < s.wait := by omega
        exact .inr (.inr (.inr (.inr (.inl ⟨hi, hr, hb, hw', step_of_waiting hi hr hb hw'⟩))))
    · by_cases hv : s.pins.reqValid = true
      · exact .inr (.inr (.inr (.inl ⟨⟨hi, hr', hb, hv⟩, step_of_accepts ⟨hi, hr', hb, hv⟩⟩)))
      · have hv' : s.pins.reqValid = false := by simpa using hv
        exact .inr (.inr (.inr (.inr (.inr ⟨hi, hr, hb, hv', step_of_idle hi hr hb hv'⟩))))
  · have hi' : s.initialised = false := by simpa using hi
    exact .inl ⟨hi', hr, step_beforeFirstReset hi' hr⟩

/-- What a next state is, by the event of the edge. -/
theorem step_next {s t : State} (h : step s = .next t) :
    (s.Resets ∧ t = s.afterDrive.resetEdge)
      ∨ (s.Completes ∧ t = s.afterDrive.complete (respondTo s.cfg.nmax (decodeRequest s.req)))
      ∨ (s.Accepts ∧ t = s.afterDrive.accept s.pins.req)
      ∨ (s.initialised = true ∧ ¬ s.Resets ∧ s.phase = .busy ∧ 1 < s.wait
          ∧ t = s.afterDrive.waitEdge)
      ∨ (s.initialised = true ∧ ¬ s.Resets ∧ s.phase ≠ .busy ∧ s.pins.reqValid = false
          ∧ t = s.afterDrive) := by
  rcases step_cases s with ⟨-, -, e⟩ | ⟨a, e⟩ | ⟨a, e⟩ | ⟨a, e⟩ | ⟨a, b, c, d, e⟩ | ⟨a, b, c, d, e⟩ <;>
    rw [h] at e
  · cases e
  all_goals injection e with e
  · exact .inl ⟨a, e⟩
  · exact .inr (.inl ⟨a, e⟩)
  · exact .inr (.inr (.inl ⟨a, e⟩))
  · exact .inr (.inr (.inr (.inl ⟨a, b, c, d, e⟩)))
  · exact .inr (.inr (.inr (.inr ⟨a, b, c, d, e⟩)))

@[simp] theorem edges_zero (s : State) : edges 0 s = .next s := rfl

/-- After an edge that is a next state the run goes on from there. -/
theorem edges_succ {s t : State} (h : step s = .next t) (k : Nat) : edges (k + 1) s = edges k t := by
  simp only [edges, h]

/-- The pins when the host's next item is raw pins. -/
@[simp] theorem pins_drive (s : State) (p : Pins) (rest : List HostAction) :
    ({ s with script := .drive p :: rest } : State).pins = p := rfl

/-- A bundle whose fields fit is what the pins carry. -/
theorem fitRequest_of_fits {nmax : Nat} {r : Request} (h : RequestFits nmax r) :
    fitRequest nmax r = r := by
  obtain ⟨h1, h2, h3, h4⟩ := h
  have hs : (List.range nmax).map (lane r.sym) = r.sym := by
    apply List.ext_getElem (by simp [h4])
    intro j _ hj
    simp [lane, hj]
  cases r
  simp only [fitRequest] at *
  rw [Nat.mod_eq_of_lt h1, Nat.mod_eq_of_lt h2, Nat.mod_eq_of_lt h3, hs]

/-- Whatever is driven, the latched bundle fits. -/
theorem fitRequest_fits (nmax : Nat) (r : Request) : RequestFits nmax (fitRequest nmax r) := by
  have hpos : 0 < 2 ^ fieldWidth nmax := Nat.two_pow_pos _
  exact ⟨Nat.mod_lt _ hpos, Nat.mod_lt _ hpos, Nat.mod_lt _ hpos, by simp [fitRequest]⟩

theorem one_le_latency (nmax draws : Nat) (r : Request) : 1 ≤ latency nmax draws r := by
  unfold latency
  omega

end Sys2Proof.Machine
end

