-- ==== Sys2Proof/Tests/Slice0.lean ====
section
/-! SUPPORT. Small tests on fixed values, expected results taken from spec/95_test_vectors.md (the id of the vector
in each comment) or written out from the spec's encodings; and for every statement with hypotheses a concrete
witness that meets them. -/

namespace Sys2Proof.Tests

open Sys2Proof Sys2Proof.Machine

/-! ### WellFormed refuses -/

/-- Sixteen lanes for the reference capacity. -/
def lanes16 : List Symbol := List.replicate 16 0x30#8

theorem test_wellFormed_accepts : (Instr.encode ⟨31, 31, 31, lanes16⟩).wellFormed 16 = true := by decide

theorem test_wellFormed_refuses_wide_m : (Instr.encode ⟨32, 7, 4, lanes16⟩).wellFormed 16 = false := by
  decide

theorem test_wellFormed_refuses_wide_n : (Instr.decode ⟨0, 32, 7, lanes16⟩).wellFormed 16 = false := by
  decide

theorem test_wellFormed_refuses_wide_len : (Instr.isvalid ⟨0, 7, 32, lanes16⟩).wellFormed 16 = false := by
  decide

theorem test_wellFormed_refuses_missing_lane :
    (Instr.reserved ⟨0, 0, 0, List.replicate 15 0#8⟩).wellFormed 16 = false := by decide

/-! ### Decoding words written out from R40 and R41 -/

/-- op 00, m 1 in [6:2], n 3 in [11:7], len 1 in [16:12], sym[0] 0x31 in [24:17] (E-4). -/
theorem test_decode_encode_word :
    decodeTableWord 145 (0b00 + 1 * 2 ^ 2 + 3 * 2 ^ 7 + 1 * 2 ^ 12 + 0x31 * 2 ^ 17)
      = some (.encode ⟨1, 3, 1, 0x31#8 :: List.replicate 15 0#8⟩) := by decide

/-- op 01, n 1, len 1, sym[0] 0x30 (D-5). -/
theorem test_decode_decode_word :
    decodeTableWord 145 (0b01 + 1 * 2 ^ 7 + 1 * 2 ^ 12 + 0x30 * 2 ^ 17)
      = some (.decode ⟨0, 1, 1, 0x30#8 :: List.replicate 15 0#8⟩) := by decide

/-- op 10, n 2, len 2, sym[0] and sym[1] 0x31 (V-5); sym[15] 0xff in the top lane [144:137]. -/
theorem test_decode_isvalid_word :
    decodeTableWord 145
        (0b10 + 2 * 2 ^ 7 + 2 * 2 ^ 12 + 0x31 * 2 ^ 17 + 0x31 * 2 ^ 25 + 0xff * 2 ^ 137)
      = some (.isvalid ⟨0, 2, 2, 0x31#8 :: 0x31#8 :: List.replicate 13 0#8 ++ [0xff#8]⟩) := by decide

/-- op 11 (I-1). -/
theorem test_decode_reserved_word :
    decodeTableWord 8 0b11 = some (.reserved ⟨0, 0, 0, List.replicate 16 0#8⟩) := by decide

/-- A bit above REQW - 1 = 144 is no bit of a bundle. -/
theorem test_decode_rejects_high_bit :
    decodeBytes 16 (bytesOfNat 19 (2 ^ 145)) = .error .bitAboveRequest := by decide

theorem test_decode_rejects_short : decodeBytes 16 (bytesOfNat 18 0) = .error .wrongByteCount := by decide

/-! ### One step per test: the response to a packed request, both as in 95_test_vectors.md -/

/-- The packed response that the very next step writes for a latched packed request. -/
def respOf (w : Nat) : Option Nat :=
  match step (State.reset.withFetchWord 145 w) with
  | .next t => some (packResponse 16 t.resp).toNat
  | _ => none

/-- E-12. -/
theorem test_encode_16_11 : respOf 0x6260626262606062626062b82c = some 0xb8df00 := by decide

/-- E-14: the consistency check. -/
theorem test_encode_inconsistent : respOf 0x626062338c = some 0x2 := by decide

/-- D-3: a single error in the top position. -/
theorem test_decode_top_position : respOf 0x626260626262606060626260626262630801 = some 0x30a0b9ab4 := by
  decide

/-- D-U2: an uncorrectable syndrome. -/
theorem test_decode_uncorrectable : respOf 0x6260606060626301 = some 0x676000834 := by decide

/-- V-3. -/
theorem test_isvalid_erroneous : respOf 0x626260626262607382 = some 0x40000008 := by decide

/-- V-7: a non-binary symbol. -/
theorem test_isvalid_bad_symbol : respOf 0x626200606262607382 = some 0x9 := by decide

/-- I-2: no other field is examined. -/
theorem test_reserved : respOf 0x626260624393 = some 0xf := by decide

/-! ### Witnesses: for each statement with hypotheses, values that meet them (each clause at a boundary) -/

/-- A block whose host drives the given actions, in the given phase. -/
def blk (p : Phase) (w : Nat) (script : List HostAction) : State :=
  { State.reset with phase := p, wait := w, script := script }

/-- ENCODE 0, 1, "" (E-2) as a bundle of the reference capacity. -/
def req1 : Request := { op := 0b00#2, m := 0, n := 1, len := 0, sym := List.replicate 16 0#8 }

theorem witness_ResetStateHoldsTheSpecifiedValues : ∃ s, s = State.resetOf ⟨1⟩ := ⟨_, rfl⟩

theorem witness_ResetEdgeClearsTheBlock : ∃ s : State, s.pins.rst = true :=
  ⟨blk .busy 2 [.reset], by decide⟩

theorem witness_ResetTakesPrecedenceAndDropsEverything :
    ∃ pins pins' : Pins, pins.rst = true ∧ pins'.rst = true ∧ pins.reqValid = true ∧ pins ≠ pins' :=
  ⟨⟨true, true, req1⟩, Pins.reset 16, by decide⟩

theorem witness_NothingBeforeTheFirstReset :
    ∃ s t : State, s.initialised = false ∧ step s = .next t :=
  ⟨{ blk .full 0 [.reset] with initialised := false }, _, rfl, step_of_resets (by decide)⟩

theorem witness_HandshakeOutputsFollowThePhase :
    ∃ s t : State, s.initialised = true ∧ t.initialised = true ∧ t.phase = s.phase ∧ s ≠ t :=
  ⟨blk .busy 1 [], blk .busy 2 [], by decide⟩

theorem witness_ResponseReadable_full : ∃ s : State, s.initialised = true ∧ s.phase = .full :=
  ⟨blk .full 0 [], by decide⟩

theorem witness_ResponseReadable_notFull : ∃ s : State, s.initialised = true ∧ s.phase ≠ .full :=
  ⟨blk .busy 1 [], by decide⟩

theorem witness_ResponseReadable_stale :
    ∃ s t : State, s.initialised = true ∧ step s = .next t ∧ t.phase = .busy :=
  ⟨blk .busy 2 [], _, rfl, step_of_waiting (by decide) (by decide) (by decide) (by decide), rfl⟩

theorem reset_inv : State.reset.Inv := by
  refine ⟨by decide, fun _ => ⟨by decide, by decide, by decide, ?_, ?_, fun _ => ⟨rfl, rfl⟩, ?_⟩⟩
  · intro h; cases h
  · intro _; rfl
  · intro h; cases h

theorem witness_ResponseReadable_empty :
    ∃ s : State, s.initialised = true ∧ s.Inv ∧ s.phase = .empty := ⟨State.reset, rfl, reset_inv, rfl⟩

theorem witness_AcceptLatchesTheRequest : ∃ s : State, s.Accepts ∧ RequestFits s.cfg.nmax s.pins.req :=
  ⟨blk .full 0 [.request req1], by decide⟩

theorem witness_BusyTakesNoRequest :
    ∃ (s : State) (pins pins' : Pins),
      s.initialised = true ∧ s.phase = .busy ∧ pins.rst = false ∧ pins'.rst = false ∧ pins ≠ pins' :=
  ⟨blk .busy 1 [], Pins.present req1, Pins.idle 16, by decide⟩

theorem witness_CompleteWritesTheWholeResponse : ∃ s : State, s.Completes := ⟨blk .busy 1 [], by decide⟩

theorem witness_StepRunsTheDecodedOperation : ∃ s : State, s.Completes :=
  ⟨State.reset.withFetchWord 145 0x80, by decide⟩

theorem witness_IdleEdge_busy :
    ∃ s : State, s.initialised = true ∧ ¬ s.Resets ∧ ¬ s.Accepts ∧ ¬ s.Completes ∧ s.phase = .busy :=
  ⟨blk .busy 2 [.request req1], by decide⟩

theorem witness_IdleEdge_full :
    ∃ s : State, s.initialised = true ∧ ¬ s.Resets ∧ ¬ s.Accepts ∧ ¬ s.Completes ∧ s.phase = .full :=
  ⟨blk .full 0 [], by decide⟩

theorem witness_ResponseHeld_idle :
    ∃ s t : State, s.initialised = true ∧ s.phase = .full ∧ step s = .next t ∧ ¬ s.Resets ∧ ¬ s.Accepts :=
  ⟨blk .full 0 [], _, rfl, rfl, step_of_idle (by decide) (by decide) (by decide) (by decide), by decide,
    by decide⟩

theorem witness_ResponseHeld_accept :
    ∃ s t : State, s.initialised = true ∧ s.phase = .full ∧ step s = .next t ∧ s.Accepts :=
  ⟨blk .full 0 [.request req1], _, rfl, rfl, step_of_accepts (by decide), by decide⟩

theorem witness_ResponseHeld_reset :
    ∃ s t : State, s.initialised = true ∧ s.phase = .full ∧ step s = .next t ∧ s.Resets :=
  ⟨blk .full 0 [.reset], _, rfl, rfl, step_of_resets (by decide), by decide⟩

theorem witness_ResponseHeld_overwritten :
    ∃ s u v : State, s.phase = .full ∧ u.Completes ∧ step u = .next v ∧ v.resp ≠ s.resp :=
  ⟨blk .full 0 [], State.reset.withFetchWord 145 0x80, _, rfl, by decide, step_of_completes (by decide),
    by decide⟩

theorem witness_EveryRegister_resp : ∃ s t : State, step s = .next t ∧ t.resp ≠ s.resp :=
  ⟨State.reset.withFetchWord 145 0x80, _, step_of_completes (by decide), by decide⟩

theorem witness_EveryRegister_req : ∃ s t : State, step s = .next t ∧ t.req ≠ s.req :=
  ⟨blk .empty 0 [.request req1], _, step_of_accepts (by decide), by decide⟩

theorem witness_EveryRegister_draws : ∃ s t : State, step s = .next t ∧ t.draws ≠ s.draws :=
  ⟨blk .empty 0 [.request req1], _, step_of_accepts (by decide), by decide⟩

theorem witness_PhaseMovesOnlyByTheThreeEvents : ∃ s t : State, step s = .next t ∧ t.phase ≠ s.phase :=
  ⟨blk .busy 1 [], _, step_of_completes (by decide), by decide⟩

theorem witness_AcceptedRequestIsAnsweredAfterItsLatency :
    ∃ (s : State) (r : Request), s.initialised = true ∧ s.phase ≠ .busy ∧ RequestFits s.cfg.nmax r
      ∧ ∀ L, 1 ≤ L → ∃ ps : List Pins, ps.length = L ∧ (∀ p ∈ ps, p.rst = false) ∧ ∃ j, j < L :=
  ⟨State.reset, req1, rfl, by decide, by decide, fun L hL =>
    ⟨List.replicate L (Pins.present req1), by simp, fun p hp => by
      rw [(List.mem_replicate.mp hp).2]; rfl, 0, hL⟩⟩

theorem witness_HostLinesDriveThePinsInOrder : ∃ p : Phase, p ≠ .full := ⟨.busy, by decide⟩

theorem witness_RequestNotation_plain : ∃ str : List Char, '\\' ∉ str ∧ str ≠ [] :=
  ⟨['0', '1'], by decide⟩

theorem witness_RequestNotation_escape : ∃ hi lo a b, HexValue hi a ∧ HexValue lo b ∧ hi ≠ lo ∧ a = 15 :=
  ⟨'F', '9', 15, 9, by decide⟩

theorem witness_RequestNotation_character : ∃ ch : Char, ch ≠ '\\' := ⟨'0', by decide⟩

/-- A backslash at the end of a string, and one before x and a character that is no digit. -/
theorem witness_RequestNotation_noEscape : ∃ rest rest2 : List Char, rest = [] ∧ rest2 = ['x', 'g', '0']
    ∧ (∀ hi lo a b rest', rest = 'x' :: hi :: lo :: rest' → HexValue hi a → ¬ HexValue lo b)
    ∧ ∀ hi lo a b rest', rest2 = 'x' :: hi :: lo :: rest' → HexValue hi a → ¬ HexValue lo b := by
  refine ⟨_, _, rfl, rfl, fun hi lo a b rest' h => (by cases h), fun hi lo a b rest' h ha => ?_⟩
  injection h with _ h
  injection h with h _
  subst h
  have hno : ∀ v, v < 16 → ¬ HexValue 'g' v := by decide
  exact absurd ha (hno a ha.1)

/-- As in the string of V-7, an escape after plain characters (R51). -/
theorem test_notation_escape_inside :
    symbolsOf ['0', '1', '\\', 'x', '4', 'F', '1'] = [0x30#8, 0x31#8, 0x4f#8, 0x31#8] := by decide

theorem witness_RequestNotation_lane : ∃ k nmax : Nat, k < nmax := ⟨0, 1, by decide⟩

theorem witness_DecodeOfEncodeIsTheOperation :
    ∃ i : Instr, i.wellFormed 16 = true ∧ i.operands.n = 31 :=
  ⟨.decode ⟨31, 31, 31, List.replicate 16 0xff#8⟩, by decide⟩

theorem witness_PackedRequestFieldsStandAtTheirBits : ∃ nmax W j : Nat, W = bitlength nmax ∧ j < nmax :=
  ⟨1, 1, 0, by decide⟩

theorem witness_ByteDecoderIsTotalAndInverse : ∃ i : Instr, i.wellFormed 1 = true :=
  ⟨.encode ⟨1, 1, 1, [0xff#8]⟩, by decide⟩

theorem witness_PackedResponse_parameters :
    ∃ nmax W RRW RMAX B i : Nat, W = bitlength nmax ∧ RMAX = rmin nmax ∧ RRW = bitlength RMAX
      ∧ B = W + 4 + nmax + RRW ∧ i < nmax := ⟨16, 5, 3, 5, 28, 15, by decide⟩

theorem witness_PackedResponse_fits : ∃ p : Response, ResponseFits 16 p ∧ p.syndrome = 31 ∧ p.r = 7 :=
  ⟨⟨.illegalOp, 3#2, 31, List.replicate 16 true, 7, 31, true, true, true⟩, by decide⟩

theorem witness_ParityCountIsMinimal : ∃ n r : Nat, n + 1 ≤ 2 ^ r ∧ 1 ≤ n ∧ n + 1 = 2 ^ r :=
  ⟨7, 3, by decide⟩

theorem witness_ValidateParams_negative : ∃ m n : Nat, (n : Int) - m ≤ 0 ∧ n < m := ⟨5, 4, by decide⟩

theorem witness_ValidateParams_positive : ∃ m n r : Nat, (n : Int) - m = r ∧ 0 < r := ⟨4, 7, 3, by decide⟩

theorem witness_ParityIndices : ∃ n k pos : Nat, k < rmin n ∧ pos ∈ positions n ∧ k + 1 = rmin n :=
  ⟨8, 3, 8, by decide⟩

theorem witness_Interleave_parity :
    ∃ (n pos : Nat) (d : List Bool), d.length + rmin n = n ∧ pos ∈ positions n ∧ isPow2 pos = true :=
  ⟨8, 8, [true, false, true, true], by decide⟩

theorem witness_Interleave_data :
    ∃ (n pos : Nat) (d : List Bool), d.length + rmin n = n ∧ pos ∈ positions n ∧ isPow2 pos = false :=
  ⟨7, 7, [true, false, true, true], by decide⟩

theorem witness_ParityRounds :
    ∃ (n k pos : Nat) (d : List Bool), d.length + rmin n = n ∧ k < rmin n ∧ pos ∈ positions n ∧ pos ≠ 2 ^ k
      ∧ bitAt (hammingEncoder d n k) pos = true :=
  ⟨3, 1, 1, [true], by decide⟩

theorem witness_Positions : ∃ n pos : Nat, 1 ≤ pos ∧ pos ≤ n ∧ pos ∈ positions n := ⟨1, 1, by decide⟩

/-- The top lane: position NMAX on lane NMAX - 1. -/
theorem witness_CarriesLanes : ∃ (x : Operands) (j : Nat), j < x.n ∧ lane x.sym j = 0x31#8 ∧ j + 1 ∈ positions x.n :=
  ⟨⟨0, 16, 16, List.replicate 15 0x30#8 ++ [0x31#8]⟩, 15, by decide⟩

theorem witness_ParityBitsDoNotDependOnTheOrder :
    ∃ (n k : Nat) (d : List Bool) (ks : List Nat), d.length + rmin n = n ∧ k < rmin n
      ∧ ks.Perm (List.range (rmin n)) ∧ ks ≠ List.range (rmin n) :=
  ⟨3, 1, [true], [1, 0], by decide⟩

theorem witness_dataWord : ∃ (n : Nat) (d : List Bool), d.length + rmin n = n ∧ d ≠ [] :=
  ⟨6, [true, false, true], by decide⟩

theorem witness_emptyDataWord : ∃ (n : Nat) (d : List Bool), d.length + rmin n = n ∧ d = [] ∧ 1 ≤ n :=
  ⟨2, [], by decide⟩

theorem witness_SyndromeBits : ∃ k k' r : Nat, k < r ∧ r ≤ k' := ⟨0, 1, 1, by decide⟩

theorem witness_SyndromeIsTheXor :
    ∃ (n : Nat) (c : List Bool) (E : List Nat),
      c.length = n ∧ E.Nodup ∧ (∀ pos ∈ E, pos ∈ positions n) ∧ E.length = 2 :=
  ⟨2, [true, true], [2, 1], by decide⟩

theorem witness_Corrector_position :
    ∃ (c : List Bool) (n S pos : Nat), c.length = n ∧ 1 ≤ S ∧ S ≤ n ∧ pos ∈ positions n ∧ pos ≠ S :=
  ⟨[true, true], 2, 2, 1, by decide⟩

theorem witness_Corrector_beyond :
    ∃ (c : List Bool) (n S : Nat), c.length = n ∧ n < S ∧ (correct c n S).uncorrectable = true :=
  ⟨[true, true], 2, 3, by decide⟩

theorem witness_Extractor : ∃ (n : Nat) (w : List Bool), w.length = n ∧ n = 3 :=
  ⟨3, [true, true, false], by decide⟩

theorem witness_UncorrectableBranch :
    ∃ (n : Nat) (c : List Bool), 1 ≤ n ∧ c.length = n ∧ (hammingDecoder c n).uncorrectable = true :=
  ⟨2, [true, true], by decide⟩

/-- X = 0 needs three errors: 1, 2 and 3 of the (3, 1) code. -/
theorem witness_MultipleErrors_zero :
    ∃ (n : Nat) (d : List Bool) (E : List Nat), d.length + rmin n = n ∧ E.Nodup
      ∧ (∀ pos ∈ E, pos ∈ positions n) ∧ 2 ≤ E.length ∧ xorPositions E = 0 :=
  ⟨3, [true], [1, 2, 3], by decide⟩

/-- D-M1. -/
theorem witness_MultipleErrors_position :
    ∃ (n : Nat) (d : List Bool) (E : List Nat), d.length + rmin n = n ∧ E.Nodup
      ∧ (∀ pos ∈ E, pos ∈ positions n) ∧ 2 ≤ E.length ∧ 1 ≤ xorPositions E ∧ xorPositions E ≤ n :=
  ⟨7, [true, false, true, true], [1, 2], by decide⟩

theorem witness_MultipleErrors_beyond :
    ∃ (n : Nat) (d : List Bool) (E : List Nat), d.length + rmin n = n ∧ E.Nodup
      ∧ (∀ pos ∈ E, pos ∈ positions n) ∧ 2 ≤ E.length ∧ n < xorPositions E :=
  ⟨2, [], [1, 2], by decide⟩

/-- E-2, and len 1 in place of 0; the clauses of ENCODE (E-15 for the parameters). -/
theorem witness_Encode_clauses :
    (∃ x : Operands, ¬ InputGood 16 x x.m)
      ∧ (∃ x : Operands, InputGood 16 x x.m ∧ ¬ EncodeParamsGood 16 x.m x.n)
      ∧ ∃ x : Operands, InputGood 16 x x.m ∧ EncodeParamsGood 16 x.m x.n :=
  ⟨⟨⟨0, 1, 1, lanes16⟩, by decide⟩, ⟨⟨0, 0, 0, lanes16⟩, by decide⟩, ⟨⟨11, 16, 11, lanes16⟩, by decide⟩⟩

/-- The clauses of DECODE and ISVALID (D-X2, D-X1, n = NMAX). -/
theorem witness_Decode_clauses :
    (∃ x : Operands, ¬ InputGood 16 x x.n)
      ∧ (∃ x : Operands, InputGood 16 x x.n ∧ ¬ DecodeParamsGood 16 x.n)
      ∧ ∃ x : Operands, InputGood 16 x x.n ∧ DecodeParamsGood 16 x.n :=
  ⟨⟨⟨0, 7, 4, lanes16⟩, by decide⟩, ⟨⟨0, 0, 0, lanes16⟩, by decide⟩, ⟨⟨0, 16, 16, lanes16⟩, by decide⟩⟩

theorem witness_Decode_fields :
    ∃ (x : Operands) (c : List Bool) (S : Nat) (w : List Bool), InputGood 16 x x.n ∧ DecodeParamsGood 16 x.n
      ∧ c = laneBits x x.n ∧ S = syndrome c x.n (rmin x.n)
      ∧ w = (if 1 ≤ S ∧ S ≤ x.n then flipAt c S else c) ∧ S = 1 :=
  ⟨⟨0, 1, 1, List.replicate 16 0x31#8⟩, [true], 1, [false], by decide⟩

theorem witness_Reserved_status : ∃ (i : Instr) (s t : State),
    exec i s = .next t ∧ t.resp.status = .illegalOp :=
  ⟨.reserved ⟨0, 0, 0, []⟩, State.reset, _, exec_eq _ _, by decide⟩

theorem witness_Reserved_accept : ∃ s : State, s.Accepts ∧ s.pins.req.op = 0b11#2 :=
  ⟨blk .empty 0 [.request { req1 with op := 0b11#2 }], by decide⟩

theorem witness_execNext : ∃ (i : Instr) (s t : State), exec i s = .next t :=
  ⟨.encode ⟨0, 1, 0, lanes16⟩, State.reset, _, exec_eq _ _⟩

theorem witness_execError : ∃ (i : Instr) (s t : State), exec i s = .next t ∧ t.resp.status ≠ .ok :=
  ⟨.decode ⟨0, 0, 0, lanes16⟩, State.reset, _, exec_eq _ _, by decide⟩

theorem witness_Len_encode : ∃ (x : Operands) (s t : State),
    exec (.encode x) s = .next t ∧ t.resp.status = .ok :=
  ⟨⟨0, 1, 0, lanes16⟩, State.reset, _, exec_eq _ _, by decide⟩

theorem witness_Len_decode : ∃ (x : Operands) (s t : State),
    exec (.decode x) s = .next t ∧ t.resp.status = .ok :=
  ⟨⟨0, 1, 1, lanes16⟩, State.reset, _, exec_eq _ _, by decide⟩

/-- D-U1 and V-5. -/
theorem witness_NonzeroSyndrome : ∃ (x : Operands) (s t u : State),
    exec (.decode x) s = .next t ∧ exec (.isvalid x) s = .next u ∧ t.resp.hadError = true
      ∧ t.resp.uncorrectable = true ∧ u.resp.syndrome ≠ 0 :=
  ⟨⟨0, 2, 2, List.replicate 16 0x31#8⟩, State.reset, _, _, exec_eq _ _, exec_eq _ _, by decide⟩

/-- The three causes of R82: a wrong length, len 17 > NMAX, a symbol 0x32. -/
theorem witness_InvalidInput : ∃ (x y z : Operands) (s t u v : State) (bad bad' : Prop),
    exec (.encode x) s = .next t ∧ exec (.decode x) s = .next u ∧ exec (.isvalid x) s = .next v
      ∧ x.len ≠ x.m ∧ (bad = (s.cfg.nmax < y.len
          ∨ ∃ j, j < y.len ∧ lane y.sym j ≠ 0x30#8 ∧ lane y.sym j ≠ 0x31#8) ∧ bad)
      ∧ (bad' = (s.cfg.nmax < z.len
          ∨ ∃ j, j < z.len ∧ lane z.sym j ≠ 0x30#8 ∧ lane z.sym j ≠ 0x31#8) ∧ bad') :=
  ⟨⟨0, 1, 1, lanes16⟩, ⟨17, 17, 17, lanes16⟩, ⟨1, 1, 1, [0x32#8]⟩, State.reset, _, _, _, _, _, exec_eq _ _,
    exec_eq _ _, exec_eq _ _, by decide, ⟨rfl, .inl (by decide)⟩,
    ⟨rfl, .inr ⟨0, by decide, by decide, by decide⟩⟩⟩

theorem witness_InvalidParameters : ∃ (x y : Operands) (s t u v : State),
    exec (.encode x) s = .next t ∧ exec (.decode y) s = .next u ∧ exec (.isvalid y) s = .next v
      ∧ InputGood s.cfg.nmax x x.m ∧ t.resp.status = .invalidParameters
      ∧ InputGood s.cfg.nmax y y.n ∧ u.resp.status = .invalidParameters
      ∧ v.resp.status = .invalidParameters :=
  ⟨⟨3, 7, 3, lanes16⟩, ⟨0, 0, 0, lanes16⟩, State.reset, _, _, _, exec_eq _ _, exec_eq _ _, exec_eq _ _,
    by decide⟩

theorem witness_ResponseDependsOnTheRequestOnly : ∃ s s' : State, s.cfg = s'.cfg ∧ s ≠ s' :=
  ⟨blk .busy 1 [], blk .full 0 [.wait], by decide⟩

theorem witness_IgnoredFields : ∃ x y : Operands, x.n = y.n ∧ x.len = y.len
    ∧ (∀ j, j < min x.len 16 → lane x.sym j = lane y.sym j) ∧ x ≠ y ∧ x.m = y.m :=
  ⟨⟨1, 3, 1, [0x31#8, 0x30#8]⟩, ⟨1, 3, 1, [0x31#8, 0x32#8]⟩, by decide⟩

/-- E-4 and the word it makes, "111". -/
theorem witness_RoundTripThroughTheBlock : ∃ (s t : State) (d : List Bool) (n : Nat) (x y : Operands),
    1 ≤ n ∧ n ≤ s.cfg.nmax ∧ d.length + rmin n = n ∧ x.m = d.length ∧ x.n = n ∧ x.len = d.length
      ∧ (∀ j, j < d.length → lane x.sym j = bitSymbol (d.getD j false))
      ∧ exec (.encode x) s = .next t ∧ y.n = n ∧ y.len = n
      ∧ ∀ j, j < n → lane y.sym j = bitSymbol (t.resp.bits.getD j false) :=
  ⟨State.reset, _, [true], 3, ⟨1, 3, 1, [0x31#8]⟩, ⟨0, 3, 3, [0x31#8, 0x31#8, 0x31#8]⟩, by decide, by decide,
    by decide, rfl, rfl, rfl, by decide, exec_eq _ _, rfl, rfl, by decide⟩

/-- D-7: position 2 of "111" flipped. -/
theorem witness_SingleBitError : ∃ (s t : State) (d : List Bool) (n i : Nat) (x y : Operands),
    1 ≤ n ∧ n ≤ s.cfg.nmax ∧ d.length + rmin n = n ∧ 1 ≤ i ∧ i ≤ n
      ∧ x.m = d.length ∧ x.n = n ∧ x.len = d.length
      ∧ (∀ j, j < d.length → lane x.sym j = bitSymbol (d.getD j false))
      ∧ exec (.encode x) s = .next t ∧ y.n = n ∧ y.len = n
      ∧ ∀ j, j < n → lane y.sym j
          = bitSymbol (if j + 1 = i then !t.resp.bits.getD j false else t.resp.bits.getD j false) :=
  ⟨State.reset, _, [true], 3, 2, ⟨1, 3, 1, [0x31#8]⟩, ⟨0, 3, 3, [0x31#8, 0x30#8, 0x31#8]⟩, by decide,
    by decide, by decide, by decide, by decide, rfl, rfl, rfl, by decide, exec_eq _ _, rfl, rfl, by decide⟩

theorem witness_StepKeepsTheInvariant : ∃ s t : State, s.Inv ∧ step s = .next t :=
  ⟨State.reset, _, reset_inv, step_of_idle (by decide) (by decide) (by decide) (by decide)⟩

theorem witness_ResetStateMeetsTheInvariant :
    (∃ cfg : Config, 1 ≤ cfg.nmax) ∧ (∃ s : State, 1 ≤ s.cfg.nmax ∧ s.initialised = false)
      ∧ ∃ s : State, s.Inv ∧ s.initialised = true :=
  ⟨⟨⟨1⟩, by decide⟩, ⟨{ State.reset with initialised := false }, by decide⟩, ⟨State.reset, reset_inv, rfl⟩⟩

end Sys2Proof.Tests
end

/-! What the response of a Complete depends on (00_scope.md R12). -/

namespace Sys2Proof.Proofs

open Sys2Proof.Machine

/-- Settles O54: a Complete writes `respondTo`, which sees of the state the capacity alone, and `State.complete`
frames the rest. -/
theorem responseDependsOnTheRequestOnly : Obligations.ResponseDependsOnTheRequestOnly := by
  intro i s s' hcfg
  have hresp : respondTo s.cfg.nmax i = respondTo s'.cfg.nmax i := by rw [hcfg]
  exact ⟨_, _, exec_eq i s, exec_eq i s', by simpa using hresp⟩

end Sys2Proof.Proofs

/-! What the outputs read (10_state.md R18, 70_reset_and_hazards.md R100): one equation per read after the first
Reset, and what they read in a block right after Reset (10_state.md R25). -/

namespace Sys2Proof.Proofs

open Sys2Proof.Machine

theorem reqReady_eq (p : Phase) : reqReady p = decide (p ≠ .busy) := by cases p <;> rfl

theorem respValid_eq (p : Phase) : respValid p = decide (p = .full) := by cases p <;> rfl

theorem readReqReady_of_initialised {s : State} (h : s.initialised = true) :
    s.readReqReady = .ok (decide (s.phase ≠ .busy)) := by
  rw [State.readReqReady, if_pos h, reqReady_eq]

theorem readRespValid_of_initialised {s : State} (h : s.initialised = true) :
    s.readRespValid = .ok (decide (s.phase = .full)) := by
  rw [State.readRespValid, if_pos h, respValid_eq]

theorem readResponse_of_full {s : State} (h : s.initialised = true) (hp : s.phase = .full) :
    s.readResponse = .ok s.resp := by
  rw [State.readResponse, if_pos h, hp]
  rfl

/-- Settles O6, by the two equations of the reads. -/
theorem handshakeOutputsFollowThePhase : Obligations.HandshakeOutputsFollowThePhase := by
  intro s hs
  refine ⟨readReqReady_of_initialised hs, readRespValid_of_initialised hs, fun t ht hp => ?_⟩
  constructor
  · rw [readReqReady_of_initialised ht, readReqReady_of_initialised hs, hp]
  · rw [readRespValid_of_initialised ht, readRespValid_of_initialised hs, hp]

theorem lane_zeroRequest (nmax j : Nat) : lane (zeroRequest nmax).sym j = 0#8 := by
  rw [lane, List.getD_eq_getElem?_getD]
  exact List.getElem?_getD_replicate_default_eq _ nmax j

theorem zeroResponse_lanes (nmax k : Nat) : (zeroResponse nmax).bits.getD k false = false := by
  rw [List.getD_eq_getElem?_getD]
  exact List.getElem?_getD_replicate_default_eq _ nmax k

/-- Settles O1: the scalar fields are those of `zeroRequest` and `zeroResponse`, the lanes those of a replicated
zero, and the outputs follow from the phase EMPTY. -/
theorem resetStateHoldsTheSpecifiedValues : Obligations.ResetStateHoldsTheSpecifiedValues := by
  rintro cfg s rfl
  have hready : (State.resetOf cfg).readReqReady = .ok true := readReqReady_of_initialised rfl
  have hvalid : (State.resetOf cfg).readRespValid = .ok false := readRespValid_of_initialised rfl
  have hsym : (zeroRequest cfg.nmax).sym.length = cfg.nmax := List.length_replicate
  have hbits : (zeroResponse cfg.nmax).bits.length = cfg.nmax := List.length_replicate
  exact ⟨rfl, rfl, rfl, rfl, rfl, rfl, hsym, fun j _ => lane_zeroRequest cfg.nmax j,
    rfl, rfl, rfl, hbits, fun i _ => zeroResponse_lanes cfg.nmax i,
    rfl, rfl, rfl, rfl, rfl, hready, hvalid⟩

end Sys2Proof.Proofs

/-! The events of a request's life: Accept, an edge in BUSY, Complete (10_state.md R20 to R22). -/

namespace Sys2Proof.Proofs

open Sys2Proof.Machine

/-- A bundle that fits the pins is latched as it is presented (30_encoding.md R39, log 6). -/
theorem accept_of_fits {s : State} {r : Request} (h : RequestFits s.cfg.nmax r) :
    s.accept r = { s with req := r, phase := .busy, wait := latency s.cfg.nmax s.draws r,
                          draws := s.draws + 1 } := by
  rw [State.accept, fitRequest_of_fits h]

/-- Settles O8: the edge is `State.accept`, which keeps every field of a bundle that fits; L is the model's
latency. -/
theorem acceptLatchesTheRequest : Obligations.AcceptLatchesTheRequest := by
  intro s hacc hfits
  have hinit : (s.afterDrive.accept s.pins.req).initialised = true := hacc.1
  refine ⟨latency s.cfg.nmax s.draws s.pins.req, one_le_latency _ _ _, _, step_of_accepts hacc, ?_,
    readRespValid_of_initialised hinit, readReqReady_of_initialised hinit⟩
  rw [accept_of_fits (s := s.afterDrive) hfits]
  rfl

/-- What an edge without rst in BUSY makes of the state: a Complete when the latency has run out, else one edge of
waiting. No pin occurs in it. -/
def busyNext (s : State) : State :=
  if s.wait ≤ 1 then s.complete (respondTo s.cfg.nmax (decodeRequest s.req)) else s.waitEdge

theorem step_of_busy {s : State} (hi : s.initialised = true) (hb : s.phase = .busy)
    (hr : s.pins.rst = false) : step s = .next (busyNext s.afterDrive) := by
  by_cases hw : s.wait ≤ 1
  · rw [step_of_completes ⟨hi, hr, hb, hw⟩]
    exact congrArg _ (if_pos hw).symm
  · rw [step_of_waiting hi (by simp [hr]) hb (Nat.lt_of_not_le hw)]
    exact congrArg _ (if_neg hw).symm

@[simp] theorem busyNext_req (s : State) : (busyNext s).req = s.req := by
  unfold busyNext
  split <;> rfl

@[simp] theorem busyNext_draws (s : State) : (busyNext s).draws = s.draws := by
  unfold busyNext
  split <;> rfl

/-- The host's drive is carried through an edge in BUSY and touches nothing else. -/
theorem busyNext_withScript (s : State) (l : List HostAction) :
    busyNext { s with script := l } = { busyNext s with script := l } := by
  unfold busyNext
  dsimp only
  split <;> rfl

/-- While BUSY a request line is presented and stays (30_encoding.md R52). -/
theorem afterDrive_request_of_busy {s : State} (hi : s.initialised = true) (hb : s.phase = .busy)
    {r : Request} {rest : List HostAction} (hs : s.script = .request r :: rest) : s.afterDrive = s := by
  have hready : reqReady s.hostPhase = false := by rw [State.hostPhase, if_pos hi, hb]; rfl
  have hkept : (hostEdge s.cfg.nmax s.hostPhase s.script).2 = s.script := by
    rw [hs, hostEdge, hready]
    rfl
  rw [State.afterDrive, hkept]

/-- Settles O9: by `step_of_busy` the edge sees the host's drive only in what is left of it. -/
theorem busyTakesNoRequest : Obligations.BusyTakesNoRequest := by
  intro s pins pins' rest hi hb hr hr'
  refine ⟨busyNext { s with script := rest }, step_of_busy hi hb hr, step_of_busy hi hb hr',
    busyNext_req _, busyNext_draws _, fun r => ?_⟩
  rw [step_of_busy (s := { s with script := .request r :: rest }) hi hb rfl,
    afterDrive_request_of_busy (s := { s with script := .request r :: rest }) hi hb rfl,
    busyNext_withScript s rest, busyNext_withScript s]

/-- Settles O10: the edge is `State.complete` after the host's drive, and a FULL block reads its RESP. -/
theorem completeWritesTheWholeResponse : Obligations.CompleteWritesTheWholeResponse := by
  intro s hs
  exact ⟨_, step_of_completes hs, rfl, readResponse_of_full hs.1 rfl⟩

end Sys2Proof.Proofs

/-! The zero fill of RESP (10_state.md R19). -/

namespace Sys2Proof.Proofs

open Sys2Proof.Machine

/-- Lanes at or above len are 0, after a success and after an error. -/
theorem respondTo_lanes (nmax : Nat) (i : Instr) {k : Nat} (h : (respondTo nmax i).len ≤ k) :
    (respondTo nmax i).bits.getD k false = false := by
  rw [respondTo] at h ⊢
  cases ho : outcomeOf nmax i with
  | success f =>
    rw [ho] at h
    exact respond_lanes nmax _ f h
  | raise e => exact zeroResponse_lanes nmax k

/-- An error writes status and op alone (60_exceptions.md R86). -/
theorem respondTo_of_error {nmax : Nat} {i : Instr} (h : (respondTo nmax i).status ≠ .ok) :
    respondTo nmax i
      = { zeroResponse nmax with status := (respondTo nmax i).status, op := (respondTo nmax i).op } := by
  rw [respondTo] at h ⊢
  cases ho : outcomeOf nmax i with
  | success f =>
    rw [ho] at h
    exact absurd rfl h
  | raise e => rfl

/-- What each of the three operations leaves 0 however it ends. -/
theorem respondTo_unnamed {nmax : Nat} {i : Instr} {p : Response} (hp : p = respondTo nmax i) :
    (∀ x, i = .encode x → p.r = 0 ∧ p.syndrome = 0 ∧ p.hadError = false
        ∧ p.uncorrectable = false ∧ p.isValid = false)
      ∧ (∀ x, i = .decode x → p.isValid = false)
      ∧ (∀ x, i = .isvalid x → p.len = 0 ∧ p.r = 0 ∧ p.hadError = false ∧ p.uncorrectable = false) := by
  rw [respondTo] at hp
  rcases outcomeOf_cases nmax i with ⟨e, he, -⟩ | ⟨x, rfl, -, -, he⟩ | ⟨x, rfl, -, -, he⟩
    | ⟨x, rfl, -, -, he⟩ <;> rw [he] at hp
  · simp [hp, respond, zeroResponse]
  · simp [hp, respond]
  · simp [hp, respond, hammingDecoder]
  · simp [hp, respond, parityChecker]

/-- No operation looks at the response that it overwrites. -/
theorem exec_withResp (i : Instr) (s : State) (p : Response) : exec i { s with resp := p } = exec i s := by
  rw [exec_eq, exec_eq]
  rfl

/-- Settles O50, for the response `respondTo` that every operation writes. -/
theorem unnamedFieldsAreWrittenZero : Obligations.UnnamedFieldsAreWrittenZero := by
  intro i s t h
  have hexec (p : Response) : exec i { s with resp := p } = .next t := (exec_withResp i s p).trans h
  have hresp : t.resp = respondTo s.cfg.nmax i := by rw [exec_next h, State.complete_resp]
  obtain ⟨henc, hdec, hval⟩ := respondTo_unnamed hresp
  refine ⟨fun k hk => ?_, henc, hdec, hval, fun hs => ?_, hexec⟩
  · rw [hresp] at hk ⊢
    exact respondTo_lanes _ i hk
  · rw [hresp] at hs ⊢
    exact respondTo_of_error hs

end Sys2Proof.Proofs

/-! The packed request (30_encoding.md R40, R41): which field each bit of the word belongs to, and that no bit of a word
is outside the fields. -/

namespace Sys2Proof.Proofs

open Sys2Proof.Machine

/-- A slice is quotient and remainder by powers of two (00_scope.md R8). -/
theorem slice_eq_div_mod {w : Nat} (v : BitVec w) (lo len : Nat) :
    slice v lo len = v.toNat / 2 ^ lo % 2 ^ len := by
  rw [slice, BitVec.extractLsb'_toNat, Nat.shiftRight_eq_div_pow]

/-- A slice placed where it was taken from is the word on those bits and 0 elsewhere. -/
theorem place_slice_getLsbD {w i : Nat} (v : BitVec w) (hi : i < w) (lo len : Nat) :
    (place w lo len (slice v lo len)).getLsbD i
      = (decide (lo ≤ i ∧ i < lo + len) && v.getLsbD i) := by
  rw [place_getLsbD_of_lt hi, slice_testBit]
  by_cases h : lo ≤ i ∧ i < lo + len
  · simp [h, Nat.add_sub_cancel' h.1, show i - lo < len by omega]
  · simp only [← Bool.decide_and, h, decide_false, Bool.false_and]

theorem lane_unpackRequest {nmax j : Nat} (v : BitVec (reqWidth nmax)) (hj : j < nmax) :
    lane (unpackRequest nmax v).sym j = v.extractLsb' (laneOffset nmax j) 8 := by
  simp [lane, unpackRequest, hj]

/-- A bit from the first lane up is a bit of one of the lanes. -/
theorem exists_lane_bit {nmax i : Nat} (hlane : 3 * fieldWidth nmax + 2 ≤ i) (hi : i < reqWidth nmax) :
    ∃ j b, j < nmax ∧ b < 8 ∧ i = laneOffset nmax j + b := by
  refine ⟨(i - (3 * fieldWidth nmax + 2)) / 8, (i - (3 * fieldWidth nmax + 2)) % 8, ?_, by omega, ?_⟩
  · rw [reqWidth] at hi
    omega
  · rw [laneOffset]
    omega

/-- Bit i of the packed lanes of a word: every bit from the first lane up is in a lane. -/
theorem packLanes_unpackRequest {nmax i : Nat} (v : BitVec (reqWidth nmax)) (hi : i < reqWidth nmax) :
    (packLanes nmax (unpackRequest nmax v).sym (List.range nmax)).getLsbD i
      = (decide (3 * fieldWidth nmax + 2 ≤ i) && v.getLsbD i) := by
  rcases Nat.lt_or_ge i (3 * fieldWidth nmax + 2) with hlow | hlane
  · rw [packLanes_low nmax _ _ hlow]
    simp [Nat.not_le.mpr hlow]
  · obtain ⟨j, b, hj, hb, rfl⟩ := exists_lane_bit hlane hi
    rw [packLanes_lane nmax _ hj hb, lane_unpackRequest v hj, BitVec.getLsbD_extractLsb']
    simp [hb, hlane]

/-- Every bit of a request word belongs to a field, so packing the fields again gives the word. -/
theorem packRequest_unpackRequest (nmax : Nat) (v : BitVec (reqWidth nmax)) :
    packRequest nmax (unpackRequest nmax v) = v := by
  apply BitVec.eq_of_getLsbD_eq
  intro i hi
  have hop : (unpackRequest nmax v).op.toNat = slice v 0 2 := rfl
  have hm : (unpackRequest nmax v).m = slice v 2 (fieldWidth nmax) := rfl
  have hn : (unpackRequest nmax v).n = slice v (fieldWidth nmax + 2) (fieldWidth nmax) := rfl
  have hlen : (unpackRequest nmax v).len = slice v (2 * fieldWidth nmax + 2) (fieldWidth nmax) := rfl
  simp only [packRequest, BitVec.getLsbD_or, hop, hm, hn, hlen, place_slice_getLsbD v hi,
    packLanes_unpackRequest v hi]
  cases v.getLsbD i with
  | false => simp
  | true =>
    simp only [Bool.and_true, Bool.or_eq_true, decide_eq_true_iff]
    omega

theorem op_unpackRequest (nmax : Nat) (v : BitVec (reqWidth nmax)) :
    (unpackRequest nmax v).op.toNat = v.toNat % 2 ^ 2 := by
  have hslice : (unpackRequest nmax v).op.toNat = slice v 0 2 := rfl
  rw [hslice, slice_eq_div_mod, Nat.pow_zero, Nat.div_one]

/-- Settles O20: each field is a slice, and a slice is quotient and remainder by powers of two. -/
theorem packedRequestFieldsStandAtTheirBits : Obligations.PackedRequestFieldsStandAtTheirBits := by
  refine ⟨?_, by decide, by decide⟩
  rintro nmax W v rfl
  have hlane (j : Nat) (hj : j < nmax) : (lane (unpackRequest nmax v).sym j).toNat
      = v.toNat / 2 ^ (3 * bitlength nmax + 2 + 8 * j) % 2 ^ 8 := by
    rw [lane_unpackRequest v hj]
    exact slice_eq_div_mod v (laneOffset nmax j) 8
  obtain ⟨-, -, -, hsym⟩ := unpackRequest_fits nmax v
  exact ⟨rfl, op_unpackRequest nmax v, slice_eq_div_mod v _ _, slice_eq_div_mod v _ _,
    slice_eq_div_mod v _ _, hsym, hlane, packRequest_unpackRequest nmax v⟩

/-- The op value of a decoded word is its two low bits. -/
theorem opCode_decode (nmax : Nat) (v : BitVec (reqWidth nmax)) :
    (decode nmax v).opCode.toNat = v.toNat % 4 := by
  have hop : (decode nmax v).opCode = (unpackRequest nmax v).op :=
    congrArg Request.op (toRequest_decodeRequest (unpackRequest nmax v))
  exact hop ▸ op_unpackRequest nmax v

/-- Settles O22: the decoded operation has the op value of the word, and the four operations have four values. -/
theorem lowTwoBitsSelectTheOperation : Obligations.LowTwoBitsSelectTheOperation := by
  intro nmax v
  rw [← opCode_decode]
  cases decode nmax v <;> simp [Instr.opCode]

end Sys2Proof.Proofs

/-! The packed response (30_encoding.md R45): unpacking and packing are inverse to each other. -/

namespace Sys2Proof.Proofs

open Sys2Proof.Machine

theorem toNat_status_unpackResponse (nmax : Nat) (v : BitVec (respWidth nmax)) :
    (statusCode (unpackResponse nmax v).status).toNat = slice v 0 2 :=
  congrArg BitVec.toNat (statusCode_statusOfCode _)

theorem getD_unpackResponse_bits {nmax i : Nat} (v : BitVec (respWidth nmax)) (hi : i < nmax) :
    (unpackResponse nmax v).bits.getD i false = v.getLsbD (fieldWidth nmax + 4 + i) := by
  simp [unpackResponse, hi]

/-- Bit i of the packed bit lanes of a word. -/
theorem packBits_unpackResponse {nmax i : Nat} (v : BitVec (respWidth nmax)) (hi : i < respWidth nmax) :
    (packBits nmax (unpackResponse nmax v).bits (List.range nmax)).getLsbD i
      = (decide (fieldWidth nmax + 4 ≤ i ∧ i < fieldWidth nmax + 4 + nmax) && v.getLsbD i) := by
  rw [packBits_all nmax _ hi]
  by_cases h : fieldWidth nmax + 4 ≤ i ∧ i < fieldWidth nmax + 4 + nmax
  · rw [getD_unpackResponse_bits v (by omega), Nat.add_sub_cancel' h.1]
    simp [h]
  · simp only [← Bool.decide_and, h, decide_false, Bool.false_and]

/-- A flag placed where it was taken from. -/
theorem place_own_flag {w i : Nat} (v : BitVec w) (hi : i < w) (lo : Nat) :
    (place w lo 1 (v.getLsbD lo).toNat).getLsbD i = (decide (i = lo) && v.getLsbD i) := by
  rw [place_flag hi]
  by_cases h : i = lo
  · rw [h]
  · simp [h]

/-- Every bit of a response word belongs to a field, so packing the fields again gives the word. -/
theorem packResponse_unpackResponse (nmax : Nat) (v : BitVec (respWidth nmax)) :
    packResponse nmax (unpackResponse nmax v) = v := by
  apply BitVec.eq_of_getLsbD_eq
  intro i hi
  have hop : (unpackResponse nmax v).op.toNat = slice v 2 2 := rfl
  have hlen : (unpackResponse nmax v).len = slice v 4 (fieldWidth nmax) := rfl
  have hr : (unpackResponse nmax v).r = slice v (fieldWidth nmax + 4 + nmax) (rrw nmax) := rfl
  have hsynd : (unpackResponse nmax v).syndrome = slice v (respBase nmax) (rmax nmax) := rfl
  have hhad : (unpackResponse nmax v).hadError = v.getLsbD (respBase nmax + rmax nmax) := rfl
  have hunc : (unpackResponse nmax v).uncorrectable = v.getLsbD (respBase nmax + rmax nmax + 1) := rfl
  have hval : (unpackResponse nmax v).isValid = v.getLsbD (respBase nmax + rmax nmax + 2) := rfl
  simp only [packResponse, BitVec.getLsbD_or, toNat_status_unpackResponse, hop, hlen, hr, hsynd,
    hhad, hunc, hval, place_slice_getLsbD v hi, packBits_unpackResponse v hi, place_own_flag v hi]
  cases v.getLsbD i with
  | false => simp
  | true =>
    simp only [Bool.and_true, Bool.or_eq_true, decide_eq_true_iff]
    rw [respWidth] at hi
    rw [respBase] at hi ⊢
    omega

/-- The field of each bit of a packed response: the fields' ranges do not meet, so at each position one disjunct of
`packResponse_getLsbD` is left. -/
theorem packResponse_field_bits (nmax : Nat) (p : Response) (v : BitVec (respWidth nmax))
    (hv : v = packResponse nmax p) :
    (∀ k, k < 2 → v.getLsbD k = (statusCode p.status).getLsbD k)
      ∧ (∀ k, k < 2 → v.getLsbD (2 + k) = p.op.getLsbD k)
      ∧ (∀ k, k < fieldWidth nmax → v.getLsbD (4 + k) = p.len.testBit k)
      ∧ (∀ k, k < nmax → v.getLsbD (fieldWidth nmax + 4 + k) = p.bits.getD k false)
      ∧ (∀ k, k < rrw nmax → v.getLsbD (fieldWidth nmax + 4 + nmax + k) = p.r.testBit k)
      ∧ (∀ k, k < rmax nmax → v.getLsbD (respBase nmax + k) = p.syndrome.testBit k)
      ∧ v.getLsbD (respBase nmax + rmax nmax) = p.hadError
      ∧ v.getLsbD (respBase nmax + rmax nmax + 1) = p.uncorrectable
      ∧ v.getLsbD (respBase nmax + rmax nmax + 2) = p.isValid := by
  have hbit (i : Nat) (hi : i < respWidth nmax) := hv ▸ packResponse_getLsbD nmax p hi
  have hwidth : respWidth nmax = respBase nmax + rmax nmax + 3 := rfl
  have hbase : respBase nmax = fieldWidth nmax + 4 + nmax + rrw nmax := rfl
  refine ⟨fun k hk => ?_, fun k hk => ?_, fun k hk => ?_, fun k hk => ?_, fun k hk => ?_,
    fun k hk => ?_, ?_, ?_, ?_⟩
  all_goals
    simp (disch := omega) only [hbit, decide_eq_true, decide_eq_false, decide_true, Bool.true_and,
      Bool.false_and, Bool.or_false, Bool.false_or, Nat.add_sub_cancel_left]

/-- A slice is the number whose bits the word carries there. -/
theorem slice_eq_of_bits {w lo len x : Nat} {v : BitVec w} (hx : x < 2 ^ len)
    (h : ∀ k, k < len → v.getLsbD (lo + k) = x.testBit k) : slice v lo len = x := by
  refine eq_of_bits_below (slice_lt v lo len) hx fun k hk => ?_
  rw [slice_testBit, h k hk]
  simp [hk]

theorem extractLsb'_eq_of_bits {w lo len : Nat} {v : BitVec w} {x : BitVec len}
    (h : ∀ k, k < len → v.getLsbD (lo + k) = x.getLsbD k) : v.extractLsb' lo len = x :=
  BitVec.eq_of_getLsbD_eq fun k hk => by simp [hk, h k hk]

/-- A response whose fields fit is read back from its packed form. -/
theorem unpackResponse_packResponse {nmax : Nat} {p : Response} (h : ResponseFits nmax p) :
    unpackResponse nmax (packResponse nmax p) = p := by
  obtain ⟨hlen, hbits, hr, hsynd⟩ := h
  obtain ⟨bstatus, bop, blen, bbits, br, bsynd, bhad, bunc, bvalid⟩ := packResponse_field_bits nmax p _ rfl
  have hstatus : (packResponse nmax p).extractLsb' 0 2 = statusCode p.status :=
    extractLsb'_eq_of_bits (by simpa using bstatus)
  have hlanes : ((List.range nmax).map fun i => (packResponse nmax p).getLsbD (fieldWidth nmax + 4 + i))
      = p.bits := by
    refine List.ext_getElem (by simp [hbits]) fun i _ hi => ?_
    simp [bbits i (hbits ▸ hi), hi]
  rw [unpackResponse, hstatus, statusOfCode_statusCode, extractLsb'_eq_of_bits bop,
    slice_eq_of_bits hlen blen, hlanes, slice_eq_of_bits hr br, slice_eq_of_bits hsynd bsynd, bhad, bunc,
    bvalid]

/-- Settles O25: each field is a slice or a bit, and packing and unpacking are inverse to each other. -/
theorem packedResponseFieldsStandAtTheirBits : Obligations.PackedResponseFieldsStandAtTheirBits := by
  refine ⟨?_, by decide, by decide, by decide⟩
  rintro nmax W RRW RMAX B rfl rfl rfl rfl
  refine ⟨rfl, fun v => ?_, fun p hp => unpackResponse_packResponse hp⟩
  have hstatus : (statusCode (unpackResponse nmax v).status).toNat = v.toNat % 2 ^ 2 := by
    rw [toNat_status_unpackResponse, slice_eq_div_mod, Nat.pow_zero, Nat.div_one]
  have hbits (i : Nat) (hi : i < nmax) : (unpackResponse nmax v).bits.getD i false
      = v.toNat.testBit (bitlength nmax + 4 + i) := getD_unpackResponse_bits v hi
  exact ⟨hstatus, slice_eq_div_mod v 2 2, slice_eq_div_mod v _ _, by simp [unpackResponse], hbits,
    slice_eq_div_mod v _ _, slice_eq_div_mod v _ _, rfl, rfl, rfl, packResponse_unpackResponse nmax v⟩

end Sys2Proof.Proofs

/-! The reserved op value, the echoed op and the result length (30_encoding.md R44, R47). -/

namespace Sys2Proof.Proofs

open Sys2Proof.Machine

/-- Only the reserved op value is answered with ILLEGAL_OP (60_exceptions.md R84). -/
theorem reserved_of_illegalOp {nmax : Nat} {i : Instr} (h : (respondTo nmax i).status = .illegalOp) :
    ∃ x, i = .reserved x := by
  rw [respondTo] at h
  rcases outcomeOf_cases nmax i with ⟨e, he, hres⟩ | ⟨x, -, -, -, he⟩ | ⟨x, -, -, -, he⟩
    | ⟨x, -, -, -, he⟩ <;> rw [he] at h
  · have hill : e = .illegalOp := by
      cases e with
      | illegalOp => rfl
      | invalidInput | invalidParameters => cases h
    exact hres.mp hill
  all_goals cases h

/-- A bundle with op = 3 selects the reserved operation (30_encoding.md R41). -/
theorem decodeRequest_of_reserved {r : Request} (h : r.op = 0b11#2) :
    decodeRequest r = .reserved r.toOperands := by
  simp [decodeRequest, h]

/-- Settles O45: `exec_eq` gives the response and the frame, `reserved_of_illegalOp` the converse, and Accept latches
the op field as it is presented. -/
theorem reservedOpCompletesWithIllegalOp : Obligations.ReservedOpCompletesWithIllegalOp := by
  refine ⟨fun x s => exec_eq (.reserved x) s, fun i s t h hs => ?_, fun s hacc hop => ?_⟩
  · rw [exec_next h, State.complete_resp] at hs
    exact reserved_of_illegalOp hs
  · exact ⟨_, step_of_accepts hacc, rfl, _, decodeRequest_of_reserved hop⟩

theorem respondTo_op (nmax : Nat) (i : Instr) : (respondTo nmax i).op = i.opCode := by
  rw [respondTo]
  cases outcomeOf nmax i <;> rfl

/-- The length of the sequence that a successful operation returns (30_encoding.md R47). -/
def resultLength : Instr → Nat
  | .encode x => x.n
  | .decode x => x.n - rmin x.n
  | .isvalid _ => 0
  | .reserved _ => 0

theorem respondTo_len_of_ok {nmax : Nat} {i : Instr} (h : (respondTo nmax i).status = .ok) :
    (respondTo nmax i).len = resultLength i := by
  rw [respondTo] at h ⊢
  rcases outcomeOf_cases nmax i with ⟨e, he, -⟩ | ⟨x, rfl, -, -, he⟩ | ⟨x, rfl, -, -, he⟩
    | ⟨x, rfl, -, -, he⟩ <;> rw [he] at h ⊢
  · cases e <;> cases h
  all_goals rfl

theorem respondTo_len_of_error {nmax : Nat} {i : Instr} (h : (respondTo nmax i).status ≠ .ok) :
    (respondTo nmax i).len = 0 := by
  rw [respondTo_of_error h]
  rfl

/-- Settles O51, for the response `respondTo` that every operation writes. -/
theorem opIsEchoedAndLenIsTheResultLength : Obligations.OpIsEchoedAndLenIsTheResultLength := by
  intro i s t h
  rw [exec_next h, State.complete_resp]
  obtain ⟨-, -, hval⟩ := respondTo_unnamed (nmax := s.cfg.nmax) (i := i) rfl
  exact ⟨respondTo_op _ i,
    fun x hx hs => (respondTo_len_of_ok hs).trans (congrArg resultLength hx),
    fun x hx hs => (respondTo_len_of_ok hs).trans (congrArg resultLength hx),
    fun x hx => (hval x hx).1, respondTo_len_of_error⟩

end Sys2Proof.Proofs

/-! What no operation looks at (30_encoding.md R42, R43): lanes at or above min(len, NMAX), and m for DECODE and
ISVALID. -/

namespace Sys2Proof.Proofs

open Sys2Proof.Machine

section ExaminedLanes

variable {x y : Operands} {nmax : Nat} (hlen : x.len = y.len)
  (hlane : ∀ j, j < min x.len nmax → lane x.sym j = lane y.sym j)
include hlen hlane

/-- The input check looks at lanes below len only, and when len is within the capacity only. -/
theorem inputGood_congr (e : Nat) (h : InputGood nmax x e) : InputGood nmax y e := by
  obtain ⟨he, hcap, hbin⟩ := h
  refine ⟨hlen ▸ he, hlen ▸ hcap, fun j hj => ?_⟩
  rw [← hlane j (by omega)]
  exact hbin j (by omega)

/-- What follows the input check sees the lanes' bits only after it has passed, when all of them are examined lanes. -/
theorem checked_congr (e : Nat) (bad : OpOutcome) (good : List Bool → OpOutcome) :
    (if !inputOk nmax x e then bad else good (laneBits x e))
      = if !inputOk nmax y e then bad else good (laneBits y e) := by
  have hok : inputOk nmax x e = inputOk nmax y e := by
    rw [Bool.eq_iff_iff, inputOk_iff_good, inputOk_iff_good]
    exact ⟨inputGood_congr hlen hlane e,
      inputGood_congr hlen.symm (fun j hj => (hlane j (hlen ▸ hj)).symm) e⟩
  rw [← hok]
  by_cases h : InputGood nmax x e
  · obtain ⟨he, hcap, -⟩ := h
    rw [laneBits_congr fun j hj => hlane j (by omega)]
  · rw [← inputOk_iff_good, Bool.not_eq_true] at h
    rw [h]
    rfl

theorem decodeOutcome_congr (hn : x.n = y.n) : decodeOutcome nmax x = decodeOutcome nmax y := by
  rw [decodeOutcome, decodeOutcome, hn]
  exact checked_congr hlen hlane y.n _ fun c =>
    if !paramsOkDecode nmax y.n then .raise .invalidParameters else .success (hammingDecoder c y.n)

theorem isvalidOutcome_congr (hn : x.n = y.n) : isvalidOutcome nmax x = isvalidOutcome nmax y := by
  rw [isvalidOutcome, isvalidOutcome, hn]
  exact checked_congr hlen hlane y.n _ fun c =>
    if !paramsOkDecode nmax y.n then .raise .invalidParameters else .success (parityChecker c y.n)

theorem encodeOutcome_congr (hn : x.n = y.n) (hm : x.m = y.m) :
    encodeOutcome nmax x = encodeOutcome nmax y := by
  rw [encodeOutcome, encodeOutcome, hn, hm]
  exact checked_congr hlen hlane y.m _ fun d =>
    if !paramsOkEncode nmax y.m y.n then .raise .invalidParameters
    else .success { len := y.n, bits := hammingEncoder d y.n (y.n - y.m) }

end ExaminedLanes

/-- Settles O55: a response is the op value and the outcome, and each outcome is a function of the examined fields. -/
theorem ignoredFieldsNeverChangeTheResponse : Obligations.IgnoredFieldsNeverChangeTheResponse := by
  intro x y nmax hn hlen hlane
  exact ⟨congrArg (respond nmax 0b01#2) (decodeOutcome_congr hlen hlane hn),
    congrArg (respond nmax 0b10#2) (isvalidOutcome_congr hlen hlane hn),
    fun hm => congrArg (respond nmax 0b00#2) (encodeOutcome_congr hlen hlane hn hm), fun _ _ => rfl⟩

end Sys2Proof.Proofs

/-! The parity count and the parameter check (40_parameters.md R53, R54). -/

namespace Sys2Proof.Proofs

open Sys2Proof.Machine

/-- Settles O26: `rminLoop_least` pins rmin(n) from both sides, and a power is at least n + 1 when it is above n. -/
theorem parityCountIsMinimal : Obligations.ParityCountIsMinimal := by
  intro n
  exact ⟨lt_two_pow_rmin n, fun _ h => rmin_le_of_lt_two_pow h, rfl, rmin_pos⟩

/-- With no parity position left the check fails, whatever n is. -/
theorem validateParams_of_le {m n : Nat} (h : n ≤ m) : validateParams m n = false := by
  rw [← Bool.not_eq_true, validateParams_iff]
  omega

/-- With r > 0 parity positions the check is the bound on the power alone. -/
theorem validateParams_add_iff {m r : Nat} (h : 0 < r) :
    validateParams m (m + r : Nat) = true ↔ m + r + 1 ≤ 2 ^ r := by
  rw [validateParams_iff, Nat.add_sub_cancel_left]
  exact and_iff_right (Nat.lt_add_of_pos_right h)

/-- Settles O27: the integer n - m is either at most 0, where the check fails, or the number r of parity positions
in n = m + r. -/
theorem validateParamsOverTheIntegers : Obligations.ValidateParamsOverTheIntegers := by
  intro m n
  refine ⟨fun h => validateParams_of_le (by omega), fun r hr hpos => ?_,
    fun h => validateParams_of_le h.le, validateParams_of_le le_rfl, validateParams_of_le m.zero_le,
    by decide, by decide⟩
  obtain rfl : n = m + r := by omega
  exact validateParams_add_iff hpos

end Sys2Proof.Proofs

/-! hamming_encoder step by step (41_encoder.md R63, R64): the interleaved word, and what each parity round does to
it. -/

namespace Sys2Proof.Proofs

open Sys2Proof.Machine

/-- Settles O31: `bitAt_interleave` gives each position's bit, and a position either is a power of two or is not. -/
theorem interleavePlacesDataBitsInOrder : Obligations.InterleavePlacesDataBitsInOrder := by
  intro n d _
  refine ⟨interleave_length d n, fun pos hpos hpow => ?_, fun pos hpos hpow => ?_⟩
  · rw [bitAt_interleave hpos, hpow, Bool.not_true, Bool.false_and]
  · rw [bitAt_interleave hpos, hpow, Bool.not_false, Bool.true_and]

/-- One more round is one `parityRound` on the word made so far. -/
theorem hammingEncoder_succ (d : List Bool) (n r : Nat) :
    hammingEncoder d n (r + 1) = parityRound n (hammingEncoder d n r) r := by
  simp [hammingEncoder, addParity, List.range_succ]

/-- The word has n positions after any number of rounds. -/
theorem hammingEncoder_length_eq (d : List Bool) (n r : Nat) : (hammingEncoder d n r).length = n := by
  induction r with
  | zero => exact interleave_length d n
  | succ r ih => rw [hammingEncoder_succ, parityRound_length, ih]

theorem bitAt_parityRound_own {n k : Nat} {c : List Bool} (hc : c.length = n) (hk : k < rmin n) :
    bitAt (parityRound n c k) (2 ^ k) = parityOver c n (2 ^ k) :=
  bitAt_setBit_same Nat.one_le_two_pow (hc ▸ two_pow_le_of_lt_rmin hk)

theorem bitAt_parityRound_other {n k pos : Nat} (c : List Bool) (hpos : pos ∈ positions n) (hne : pos ≠ 2 ^ k) :
    bitAt (parityRound n c k) pos = bitAt c pos :=
  bitAt_setBit_other Nat.one_le_two_pow (mem_positions.mp hpos).1 hne

/-- The positions that a parity is taken over are those with the bit set (00_scope.md R8). -/
theorem parityOver_eq_testBit (c : List Bool) (n k : Nat) :
    parityOver c n (2 ^ k) = xorAll (((positions n).filter fun pos => pos.testBit k).map (bitAt c)) := by
  simp only [parityOver, and_two_pow_ne_zero]

/-- Settles O32: round k is `parityRound` on the word of the rounds before it. -/
theorem parityRoundsStoreTheCurrentParity : Obligations.ParityRoundsStoreTheCurrentParity := by
  intro n d _
  refine ⟨rfl, fun k hk => ⟨?_, fun pos hpos hne => ?_, hammingEncoder_length_eq d n (k + 1)⟩⟩
  · rw [hammingEncoder_succ, bitAt_parityRound_own (hammingEncoder_length_eq d n k) hk, parityOver_eq_testBit]
  · rw [hammingEncoder_succ, bitAt_parityRound_other _ hpos hne]

end Sys2Proof.Proofs

/-! The three responses to ENCODE (41_encoder.md R66). -/

namespace Sys2Proof.Proofs

open Sys2Proof.Machine

theorem respondTo_encode_badInput {nmax : Nat} {x : Operands} (h : ¬ InputGood nmax x x.m) :
    respondTo nmax (.encode x) = { zeroResponse nmax with status := .invalidInput, op := 0b00#2 } :=
  congrArg (respond nmax 0b00#2) (encodeOutcome_badInput h)

theorem respondTo_encode_badParams {nmax : Nat} {x : Operands} (h : InputGood nmax x x.m)
    (hp : ¬ EncodeParamsGood nmax x.m x.n) :
    respondTo nmax (.encode x) = { zeroResponse nmax with status := .invalidParameters, op := 0b00#2 } :=
  congrArg (respond nmax 0b00#2) (encodeOutcome_badParams h hp)

/-- The codeword fills the lanes below n, and the zero fill is the lanes above it (10_state.md R19). -/
theorem respondTo_encode_good {nmax : Nat} {x : Operands} (h : InputGood nmax x x.m)
    (hp : EncodeParamsGood nmax x.m x.n) :
    respondTo nmax (.encode x)
      = { status := .ok, op := 0b00#2, len := x.n,
          bits := hammingEncoder (laneBits x x.m) x.n (x.n - x.m) ++ List.replicate (nmax - x.n) false,
          r := 0, syndrome := 0, hadError := false, uncorrectable := false, isValid := false } := by
  have hfits : x.n ≤ nmax := hp.1
  rw [respondTo, outcomeOf, encodeOutcome_good h hp, respond,
    fillLanes_eq (encoded_length hp) hfits]
  rfl

/-- Settles O42: `exec_eq` gives the completion and the frame, and RESP is one of the three responses; lane i of a
success is position i + 1 because the codeword has x.n positions. -/
theorem encodeCompletesWithTheCodewordOrTheError : Obligations.EncodeCompletesWithTheCodewordOrTheError := by
  intro x s
  refine ⟨_, exec_eq (.encode x) s, rfl, respondTo_encode_badInput, respondTo_encode_badParams,
    laneBits_carries x x.m, fun h hp => ⟨fun i hi => ?_, respondTo_encode_good h hp⟩⟩
  have hlen : i < (hammingEncoder (laneBits x x.m) x.n (x.n - x.m)).length := (encoded_length hp).symm ▸ hi
  rw [State.complete_resp, respondTo_encode_good h hp, List.getD_append _ _ _ _ hlen]
  rfl

end Sys2Proof.Proofs

/-! hamming_syndrome_generator bit by bit (42_decoder.md R68). -/

namespace Sys2Proof.Proofs

open Sys2Proof.Machine

/-- An exclusive-or is a parity of the number of ones (00_scope.md R9): each further 1 changes both. -/
theorem xorAll_eq_count_odd (bs : List Bool) : xorAll bs = decide (bs.count true % 2 = 1) := by
  induction bs with
  | nil => rfl
  | cons b bs ih =>
    rw [xorAll_cons, ih]
    cases b with
    | false => rw [Bool.false_xor, List.count_cons_of_ne Bool.false_ne_true]
    | true => rw [Bool.true_xor, List.count_cons_self, ← decide_not, decide_eq_decide]; omega

theorem bitAt_replicate_false (n pos : Nat) : bitAt (List.replicate n false) pos = false := by
  rw [bitAt, List.getD_eq_getElem?_getD, List.getElem?_replicate]
  split <;> rfl

/-- The all-zero codeword has every parity 0. -/
theorem parityOver_replicate_false (n k : Nat) : parityOver (List.replicate n false) n (2 ^ k) = false := by
  simp only [parityOver_eq, bitAt_replicate_false, Bool.and_false, xorAll_map_false]

theorem syndrome_replicate_false (n r : Nat) : syndrome (List.replicate n false) n r = 0 := by
  apply Nat.eq_of_testBit_eq
  intro k
  rw [syndrome_testBit, parityOver_replicate_false, Bool.and_false, Nat.zero_testBit]

/-- With one position the only parity is the bit itself. -/
theorem syndrome_single (c : List Bool) : syndrome c 1 1 = (bitAt c 1).toNat := by
  have hpar : parityOver c 1 (2 ^ 0) = bitAt c 1 := Bool.xor_false _
  have hzero : syndrome c 1 0 = 0 := rfl
  rw [syndrome_succ, syndromeRound, hpar, hzero]
  cases bitAt c 1 <;> rfl

/-- Settles O35: `syndrome_testBit` gives every bit, and `parityOver_eq_testBit` the positions it is a parity of. -/
theorem syndromeBitsAreTheParities : Obligations.SyndromeBitsAreTheParities := by
  intro c n r
  refine ⟨fun k hk => ?_, fun k hk => ?_, syndrome_replicate_false n r, syndrome_single c, xorAll_eq_count_odd⟩
  · rw [syndrome_testBit, decide_eq_true hk, Bool.true_and, parityOver_eq_testBit]
  · rw [syndrome_testBit, decide_eq_false (Nat.not_lt.mpr hk), Bool.false_and]

end Sys2Proof.Proofs

/-! error_corrector and the data extractor (42_decoder.md R70, R71). -/

namespace Sys2Proof.Proofs

open Sys2Proof.Machine

theorem bitAt_flipAt_same {c : List Bool} {p : Nat} (h1 : 1 ≤ p) (h2 : p ≤ c.length) :
    bitAt (flipAt c p) p = !bitAt c p :=
  bitAt_setBit_same h1 h2

theorem bitAt_flipAt_other {c : List Bool} {n p pos : Nat} (h1 : 1 ≤ p) (hpos : pos ∈ positions n) (hne : pos ≠ p) :
    bitAt (flipAt c p) pos = bitAt c pos :=
  bitAt_setBit_other h1 (mem_positions.mp hpos).1 hne

/-- A syndrome that names no position is not zero. -/
theorem hadError_of_uncorrectable {c : List Bool} {n S : Nat} (h : (correct c n S).uncorrectable = true) :
    (correct c n S).hadError = true := by
  have hbeyond : n < S := of_decide_eq_true ((uncorrectableFlag_eq S n).symm.trans h)
  rw [correct_beyond hbeyond]

/-- Settles O37: one lemma per case of the syndrome (`correct_zero`, `correct_position`, `correct_beyond`), and a flip
changes its own position only. -/
theorem correctorFlipsExactlyTheNamedPosition : Obligations.CorrectorFlipsExactlyTheNamedPosition := by
  intro c n S hc
  refine ⟨fun h => ?_, fun h1 h2 => ?_, correct_beyond, hadError_of_uncorrectable⟩
  · rw [h, correct_zero]
  · rw [correct_position h1 h2]
    exact ⟨rfl, rfl, rfl, bitAt_flipAt_same h1 (hc ▸ h2), (flipAt_length c S).trans hc,
      fun _ hpos hne => bitAt_flipAt_other h1 hpos hne⟩

/-- Settles O38: the bits are those of `extract_eq`, and `data_count` counts the data positions. -/
theorem extractorReadsTheDataPositionsInOrder : Obligations.ExtractorReadsTheDataPositionsInOrder := by
  intro n w hw
  refine ⟨extract_eq hw, ?_⟩
  rw [extract_eq hw, List.length_map, data_count]

end Sys2Proof.Proofs

/-! The three responses to DECODE (42_decoder.md R73). -/

namespace Sys2Proof.Proofs

open Sys2Proof.Machine

theorem respondTo_decode_badInput {nmax : Nat} {x : Operands} (h : ¬ InputGood nmax x x.n) :
    respondTo nmax (.decode x) = { zeroResponse nmax with status := .invalidInput, op := 0b01#2 } :=
  congrArg (respond nmax 0b01#2) (decodeOutcome_badInput h)

theorem respondTo_decode_badParams {nmax : Nat} {x : Operands} (h : InputGood nmax x x.n)
    (hp : ¬ DecodeParamsGood nmax x.n) :
    respondTo nmax (.decode x) = { zeroResponse nmax with status := .invalidParameters, op := 0b01#2 } :=
  congrArg (respond nmax 0b01#2) (decodeOutcome_badParams h hp)

theorem hadErrorFlag_eq (S : Nat) : hadErrorFlag S = decide (S ≠ 0) := by
  rw [Bool.eq_iff_iff, hadErrorFlag, bne_iff_ne, decide_eq_true_iff]

/-- The result of hamming_decoder for a received codeword, field by field. -/
theorem hammingDecoder_eq (c : List Bool) (n : Nat) :
    hammingDecoder c n
      = { len := n - rmin n, bits := extract (correctedWord c n (syndrome c n (rmin n))) n, r := rmin n,
          syndrome := syndrome c n (rmin n), hadError := decide (syndrome c n (rmin n) ≠ 0),
          uncorrectable := decide (n < syndrome c n (rmin n)) } := by
  rw [← hadErrorFlag_eq, ← uncorrectableFlag_eq]
  rfl

/-- The data word fills the lanes below n - rmin(n), and the zero fill is the lanes above it (10_state.md R19). -/
theorem respondTo_decode_good {nmax : Nat} {x : Operands} (h : InputGood nmax x x.n)
    (hp : DecodeParamsGood nmax x.n) {c : List Bool} {S : Nat} (hc : c = laneBits x x.n)
    (hS : S = syndrome c x.n (rmin x.n)) :
    respondTo nmax (.decode x)
      = { status := .ok, op := 0b01#2, len := x.n - rmin x.n,
          bits := extract (correctedWord c x.n S) x.n ++ List.replicate (nmax - (x.n - rmin x.n)) false,
          r := rmin x.n, syndrome := S, hadError := decide (S ≠ 0), uncorrectable := decide (x.n < S),
          isValid := false } := by
  have hlen : (hammingDecoder c x.n).bits.length = x.n - rmin x.n := decoded_length (hc ▸ laneBits_length x x.n)
  rw [hammingDecoder_eq, ← hS] at hlen
  rw [respondTo, outcomeOf, decodeOutcome_good h hp, ← hc, hammingDecoder_eq, ← hS, respond,
    fillLanes_eq hlen ((Nat.sub_le _ _).trans hp.2)]
  rfl

/-- Settles O43: `exec_eq` gives the completion and the frame, and RESP is one of the three responses; the word that the
statement writes out is `correctedWord`. -/
theorem decodeCompletesWithTheWordOrTheError : Obligations.DecodeCompletesWithTheWordOrTheError := by
  intro x s
  refine ⟨_, exec_eq (.decode x) s, rfl, respondTo_decode_badInput, respondTo_decode_badParams,
    laneBits_carries x x.n, fun pos hpos => ?_, fun h hp c S w hc hS hw => ?_⟩
  · obtain ⟨h1, h2⟩ := mem_positions.mp hpos
    exact bitAt_laneBits h1 h2
  · rw [hw, State.complete_resp]
    exact respondTo_decode_good h hp hc hS

end Sys2Proof.Proofs

/-! The three responses to ISVALID (43_parity_checker.md R80). -/

namespace Sys2Proof.Proofs

open Sys2Proof.Machine

theorem respondTo_isvalid_badInput {nmax : Nat} {x : Operands} (h : ¬ InputGood nmax x x.n) :
    respondTo nmax (.isvalid x) = { zeroResponse nmax with status := .invalidInput, op := 0b10#2 } :=
  congrArg (respond nmax 0b10#2) (isvalidOutcome_badInput h)

theorem respondTo_isvalid_badParams {nmax : Nat} {x : Operands} (h : InputGood nmax x x.n)
    (hp : ¬ DecodeParamsGood nmax x.n) :
    respondTo nmax (.isvalid x) = { zeroResponse nmax with status := .invalidParameters, op := 0b10#2 } :=
  congrArg (respond nmax 0b10#2) (isvalidOutcome_badParams h hp)

theorem validFlag_eq (S : Nat) : validFlag S = decide (S = 0) := by
  rw [Bool.eq_iff_iff, validFlag, beq_iff_eq, decide_eq_true_iff]

/-- The result of parity_checker for a received codeword (43_parity_checker.md R78): only these two fields are named. -/
theorem parityChecker_eq (c : List Bool) (n : Nat) :
    parityChecker c n
      = { syndrome := syndrome c n (rmin n), isValid := decide (syndrome c n (rmin n) = 0) } := by
  rw [← validFlag_eq]
  rfl

/-- ISVALID names no len and no bits, so the zero fill is every lane (10_state.md R19). -/
theorem respondTo_isvalid_good {nmax : Nat} {x : Operands} (h : InputGood nmax x x.n)
    (hp : DecodeParamsGood nmax x.n) {S : Nat} (hS : S = syndrome (laneBits x x.n) x.n (rmin x.n)) :
    respondTo nmax (.isvalid x)
      = { status := .ok, op := 0b10#2, len := 0, bits := List.replicate nmax false, r := 0,
          syndrome := S, hadError := false, uncorrectable := false, isValid := decide (S = 0) } := by
  rw [respondTo, outcomeOf, isvalidOutcome_good h hp, parityChecker_eq, ← hS, respond, fillLanes_none]
  rfl

/-- Settles O44: `exec_eq` gives the completion and the frame, and RESP is one of the three responses. -/
theorem isvalidCompletesWithTheCheckOrTheError : Obligations.IsvalidCompletesWithTheCheckOrTheError := by
  intro x s
  refine ⟨_, exec_eq (.isvalid x) s, rfl, respondTo_isvalid_badInput, respondTo_isvalid_badParams,
    laneBits_carries x x.n, fun pos hpos => ?_, fun h hp S hS => respondTo_isvalid_good h hp hS⟩
  obtain ⟨h1, h2⟩ := mem_positions.mp hpos
  exact bitAt_laneBits h1 h2

end Sys2Proof.Proofs

/-! Which status an operation ends with (60_exceptions.md R82, R83, R85). -/

namespace Sys2Proof.Proofs

open Sys2Proof.Machine

/-- R85's order for the operations that have checks: the input check decides before the parameter check. -/
def checkedStatus (input params : Prop) [Decidable input] [Decidable params] : Status :=
  if input then if params then .ok else .invalidParameters else .invalidInput

section CheckedStatus

variable {input params : Prop} [Decidable input] [Decidable params]

theorem checkedStatus_eq_invalidInput_iff : checkedStatus input params = .invalidInput ↔ ¬ input := by
  unfold checkedStatus
  split_ifs <;> simp [*]

theorem checkedStatus_eq_invalidParameters_iff :
    checkedStatus input params = .invalidParameters ↔ input ∧ ¬ params := by
  unfold checkedStatus
  split_ifs <;> simp [*]

theorem checkedStatus_eq_ok_iff : checkedStatus input params = .ok ↔ input ∧ params := by
  unfold checkedStatus
  split_ifs <;> simp [*]

/-- The three responses of a checked operation give its status. -/
theorem status_eq_checkedStatus {p bad badParams : Response} (hbad : ¬ input → p = bad)
    (hparams : input → ¬ params → p = badParams) (hgood : input → params → p.status = .ok)
    (h1 : bad.status = .invalidInput) (h2 : badParams.status = .invalidParameters) :
    p.status = checkedStatus input params := by
  unfold checkedStatus
  split_ifs with hi hp
  · exact hgood hi hp
  · rw [hparams hi hp, h2]
  · rw [hbad hi, h1]

end CheckedStatus

theorem respondTo_encode_status (nmax : Nat) (x : Operands) :
    (respondTo nmax (.encode x)).status
      = checkedStatus (InputGood nmax x x.m) (EncodeParamsGood nmax x.m x.n) :=
  status_eq_checkedStatus respondTo_encode_badInput respondTo_encode_badParams
    (fun h hp => congrArg Response.status (respondTo_encode_good h hp)) rfl rfl

theorem respondTo_decode_status (nmax : Nat) (x : Operands) :
    (respondTo nmax (.decode x)).status
      = checkedStatus (InputGood nmax x x.n) (DecodeParamsGood nmax x.n) :=
  status_eq_checkedStatus respondTo_decode_badInput respondTo_decode_badParams
    (fun h hp => congrArg Response.status (respondTo_decode_good h hp rfl rfl)) rfl rfl

theorem respondTo_isvalid_status (nmax : Nat) (x : Operands) :
    (respondTo nmax (.isvalid x)).status
      = checkedStatus (InputGood nmax x x.n) (DecodeParamsGood nmax x.n) :=
  status_eq_checkedStatus respondTo_isvalid_badInput respondTo_isvalid_badParams
    (fun h hp => congrArg Response.status (respondTo_isvalid_good h hp rfl)) rfl rfl

/-- Settles O46: one status equation per operation. -/
theorem errorPriorityIsOpThenInputThenParameters :
    Obligations.ErrorPriorityIsOpThenInputThenParameters := by
  refine ⟨rfl, rfl, rfl, rfl, fun i s t h => ?_⟩
  rw [exec_next h, State.complete_resp]
  cases i with
  | encode x => exact respondTo_encode_status s.cfg.nmax x
  | decode x => exact respondTo_decode_status s.cfg.nmax x
  | isvalid x => exact respondTo_isvalid_status s.cfg.nmax x
  | reserved x => rfl

/-- The three causes of R82. -/
theorem not_inputGood_iff (nmax : Nat) (x : Operands) (e : Nat) :
    ¬ InputGood nmax x e ↔ x.len ≠ e ∨ nmax < x.len
      ∨ ∃ j, j < x.len ∧ lane x.sym j ≠ 0x30#8 ∧ lane x.sym j ≠ 0x31#8 := by
  have hlanes : (¬ ∀ j, j < x.len → lane x.sym j = 0x30#8 ∨ lane x.sym j = 0x31#8)
      ↔ ∃ j, j < x.len ∧ lane x.sym j ≠ 0x30#8 ∧ lane x.sym j ≠ 0x31#8 := by
    push Not
    rfl
  rw [InputGood, not_and_or, not_and_or, Nat.not_le, hlanes]

/-- Settles O47: INVALID_INPUT is the failure of the input check, for each of the three operations. -/
theorem invalidInputHasExactlyItsThreeCauses : Obligations.InvalidInputHasExactlyItsThreeCauses := by
  rintro x s t u v ht hu hv bad rfl
  rw [exec_next ht, exec_next hu, exec_next hv]
  simp only [State.complete_resp, respondTo_encode_status, respondTo_decode_status,
    respondTo_isvalid_status, checkedStatus_eq_invalidInput_iff, not_inputGood_iff, and_self]

/-- The four causes of R83 for ENCODE, over the integers. -/
theorem not_encodeParamsGood_iff (nmax m n : Nat) :
    ¬ EncodeParamsGood nmax m n ↔ nmax < n ∨ (n : Int) - m ≤ 0 ∨ 2 ^ (n - m) < n + 1
      ∨ (m : Int) ≠ n - rmin n := by
  have hdiff : ¬ m < n ↔ (n : Int) - m ≤ 0 := by omega
  have hsum : m + rmin n ≠ n ↔ (m : Int) ≠ n - rmin n := by omega
  rw [EncodeParamsGood, not_and_or, not_and_or, not_and_or, Nat.not_le, Nat.not_le, hdiff, ← hsum]

/-- A word that the input check has passed fits the capacity, so that n = 0 is the only cause left. -/
theorem not_decodeParamsGood_iff {nmax : Nat} {x : Operands} (h : InputGood nmax x x.n) :
    ¬ DecodeParamsGood nmax x.n ↔ x.n = 0 := by
  obtain ⟨hlen, hcap, -⟩ := h
  rw [DecodeParamsGood]
  omega

/-- Settles O48: INVALID_PARAMETERS is a passed input check and a failed gate, for each of the three operations. -/
theorem invalidParametersHasExactlyItsCauses : Obligations.InvalidParametersHasExactlyItsCauses := by
  intro x s t u v ht hu hv
  rw [exec_next ht, exec_next hu, exec_next hv]
  simp only [State.complete_resp, respondTo_encode_status, respondTo_decode_status,
    respondTo_isvalid_status, checkedStatus_eq_invalidParameters_iff]
  refine ⟨fun h => ?_, fun h => ?_, And.left, And.left, And.left⟩
  · rw [and_iff_right h, not_encodeParamsGood_iff]
  · rw [and_iff_right h, not_decodeParamsGood_iff h, and_self]

end Sys2Proof.Proofs

/-! What an error leaves in RESP, and that a non-zero syndrome is none (60_exceptions.md R86, R87). -/

namespace Sys2Proof.Proofs

open Sys2Proof.Machine

/-- Settles O49: RESP is the zero response but for status and op, and `State.complete` frames the rest. -/
theorem errorLeavesOnlyStatusAndOp : Obligations.ErrorLeavesOnlyStatusAndOp := by
  intro i s t h hs
  rw [exec_next h, State.complete_resp] at hs ⊢
  refine ⟨respondTo_op _ i, ?_⟩
  rw [respondTo_of_error hs]
  exact ⟨rfl, rfl, rfl, rfl, rfl, rfl, List.length_replicate, zeroResponse_lanes _, rfl⟩

/-- Only a success writes a non-zero syndrome or an error flag. -/
theorem respondTo_ok_of_finding {nmax : Nat} {i : Instr} (h : (respondTo nmax i).hadError = true
      ∨ (respondTo nmax i).uncorrectable = true ∨ (respondTo nmax i).syndrome ≠ 0) :
    (respondTo nmax i).status = .ok := by
  by_contra herr
  rw [respondTo_of_error herr] at h
  simp [zeroResponse] at h

theorem respondTo_decode_of_ok {nmax : Nat} {x : Operands} (h : (respondTo nmax (.decode x)).status = .ok) :
    respondTo nmax (.decode x) = respond nmax 0b01#2 (.success (hammingDecoder (laneBits x x.n) x.n)) := by
  rw [respondTo_decode_status, checkedStatus_eq_ok_iff] at h
  obtain ⟨hin, hp⟩ := h
  exact congrArg (respond nmax 0b01#2) (decodeOutcome_good hin hp)

theorem respondTo_isvalid_of_ok {nmax : Nat} {x : Operands} (h : (respondTo nmax (.isvalid x)).status = .ok) :
    respondTo nmax (.isvalid x) = respond nmax 0b10#2 (.success (parityChecker (laneBits x x.n) x.n)) := by
  rw [respondTo_isvalid_status, checkedStatus_eq_ok_iff] at h
  obtain ⟨hin, hp⟩ := h
  exact congrArg (respond nmax 0b10#2) (isvalidOutcome_good hin hp)

/-- Each of the corrector's flags tells of a non-zero syndrome (42_decoder.md R70). -/
theorem syndrome_ne_zero_of_flag {c : List Bool} {n S : Nat}
    (h : (correct c n S).hadError = true ∨ (correct c n S).uncorrectable = true) : S ≠ 0 := by
  have hhad : hadErrorFlag S = true := h.elim id hadError_of_uncorrectable
  rwa [hadErrorFlag_eq, decide_eq_true_iff] at hhad

/-- Settles O52: what was found says that the operation succeeded, and the response is then the sub-block's result. -/
theorem nonzeroSyndromeEndsWithStatusOk : Obligations.NonzeroSyndromeEndsWithStatusOk := by
  intro x s t u ht hu
  rw [exec_next ht, exec_next hu, State.complete_resp, State.complete_resp]
  constructor
  · intro hflag
    have hok : (respondTo s.cfg.nmax (.decode x)).status = .ok :=
      respondTo_ok_of_finding (hflag.imp_right .inl)
    rw [respondTo_decode_of_ok hok] at hflag ⊢
    exact ⟨rfl, rfl, rfl, rfl, syndrome_ne_zero_of_flag (c := laneBits x x.n) hflag, rfl⟩
  · intro hS
    have hok : (respondTo s.cfg.nmax (.isvalid x)).status = .ok :=
      respondTo_ok_of_finding (.inr (.inr hS))
    rw [respondTo_isvalid_of_ok hok, parityChecker_eq] at hS ⊢
    exact ⟨rfl, decide_eq_false hS⟩

end Sys2Proof.Proofs

/-! Reset and the time before it (70_reset_and_hazards.md R94 to R96). -/

namespace Sys2Proof.Proofs

open Sys2Proof.Machine

/-- With raw pins that drive rst = 1 the edge is the Reset event on what is left of the host's drive. -/
theorem step_drive_of_rst {pins : Pins} (h : pins.rst = true) (s : State) (rest : List HostAction) :
    step { s with script := .drive pins :: rest } = .next ({ s with script := rest } : State).resetEdge :=
  step_of_resets h

/-- Settles O3: both edges are `State.resetEdge`, which overwrites every register in which the two states differ,
and a second Reset writes the same values. -/
theorem resetTakesPrecedenceAndDropsEverything : Obligations.ResetTakesPrecedenceAndDropsEverything := by
  intro s ph k q p b pins pins' rest h h'
  refine ⟨({ s with script := rest } : State).resetEdge, step_drive_of_rst h s rest, ?_, rfl, rfl, rfl, ?_⟩
  · exact step_drive_of_rst h' { s with phase := ph, wait := k, req := q, resp := p, initialised := b } rest
  · exact step_drive_of_rst h ({ s with script := rest } : State).resetEdge rest

/-- Settles O2: the edge is `State.resetEdge` after the host's drive, and the outputs follow from the phase EMPTY. -/
theorem resetEdgeClearsTheBlock : Obligations.ResetEdgeClearsTheBlock := by
  intro s hr
  exact ⟨s.afterDrive.resetEdge, step_of_resets hr, rfl,
    readReqReady_of_initialised rfl, readRespValid_of_initialised rfl⟩

theorem resets_of_step_beforeFirstReset {s t : State} (hi : s.initialised = false) (h : step s = .next t) :
    s.Resets := by
  by_contra hr
  rw [step_beforeFirstReset hi hr] at h
  cases h

theorem step_next_unique {s t u : State} (h : step s = .next t) (h' : step s = .next u) : t = u :=
  Host.Outcome.next.inj (h.symm.trans h')

/-- Settles O4: `step_beforeFirstReset` leaves the Reset alone, and every read looks at `initialised` first. -/
theorem nothingBeforeTheFirstReset : Obligations.NothingBeforeTheFirstReset := by
  intro s hi
  have hi' : ¬ s.initialised = true := by simp [hi]
  refine ⟨fun t h => ?_, if_neg hi', if_neg hi', if_neg hi'⟩
  have hr : s.Resets := resets_of_step_beforeFirstReset hi h
  obtain rfl : t = s.afterDrive.resetEdge := step_next_unique h (step_of_resets hr)
  exact ⟨hr, rfl, rfl, rfl⟩

end Sys2Proof.Proofs

/-! How long RESP holds a response, and when it reads as one (70_reset_and_hazards.md R100, R101). -/

namespace Sys2Proof.Proofs

open Sys2Proof.Machine

theorem readResponse_of_not_full {s : State} (h : s.initialised = true) (hp : s.phase ≠ .full) :
    s.readResponse = .error .respNotValid := by
  rw [State.readResponse, if_pos h, respValid_eq, if_neg (by simpa using hp)]

/-- Only a Reset and a Complete write RESP, and neither ends in BUSY. -/
theorem resp_of_step_to_busy {s t : State} (h : step s = .next t) (hb : t.phase = .busy) : t.resp = s.resp := by
  rcases step_next h with ⟨-, rfl⟩ | ⟨-, rfl⟩ | ⟨-, rfl⟩ | ⟨-, -, -, -, rfl⟩ | ⟨-, -, -, -, rfl⟩
  case inl => simp at hb
  case inr.inl => simp at hb
  all_goals rfl

/-- Settles O7: one equation per read, `resp_of_step_to_busy` for the stale RESP, and the invariant for EMPTY. -/
theorem responseReadableOnlyWhileFull : Obligations.ResponseReadableOnlyWhileFull := by
  intro s hi
  exact ⟨readResponse_of_full hi, readResponse_of_not_full hi, fun _ => resp_of_step_to_busy,
    fun hinv hempty => ((hinv.coherent hi).emptyZero hempty).2⟩

/-- Outside BUSY an edge that is neither Reset nor Accept moves the host's drive alone. -/
theorem step_of_no_event {s : State} (hi : s.initialised = true) (hb : s.phase ≠ .busy)
    (hr : ¬ s.Resets) (ha : ¬ s.Accepts) : step s = .next s.afterDrive := by
  have hv : s.pins.reqValid = false := by
    by_contra hv
    exact ha ⟨hi, by simpa using hr, hb, by simpa using hv⟩
  exact step_of_idle hi hr hb hv

/-- Settles O13: the step's equation for the idle edge, the Accept, the Reset and the Complete. -/
theorem responseHeldUntilAcceptOrReset : Obligations.ResponseHeldUntilAcceptOrReset := by
  intro s t hi hfull h
  refine ⟨fun hr ha => ?_, fun ha => ?_, fun hr => ?_, fun u v hu huv => ?_⟩
  · have hidle : step s = .next s.afterDrive := step_of_no_event hi (by simp [hfull]) hr ha
    obtain rfl : t = s.afterDrive := step_next_unique h hidle
    exact ⟨hfull, rfl, rfl⟩
  · obtain rfl : t = s.afterDrive.accept s.pins.req := step_next_unique h (step_of_accepts ha)
    exact ⟨rfl, rfl, readRespValid_of_initialised hi⟩
  · obtain rfl : t = s.afterDrive.resetEdge := step_next_unique h (step_of_resets hr)
    exact ⟨rfl, readRespValid_of_initialised rfl⟩
  · rw [step_next_unique huv (step_of_completes hu), State.complete_resp]

end Sys2Proof.Proofs

/-! The invariant (10_state.md sections 3 and 4) and R23's clauses on the flags, which it holds: one lemma per event of
the edge says that the registers are coherent after it. -/

namespace Sys2Proof.Proofs

open Sys2Proof.Machine

/-- What sets each flag of a response, by the outcome of the operation: an error sets none. -/
theorem respondTo_flags (nmax : Nat) (i : Instr) :
    ((respondTo nmax i).hadError = true ↔ (∃ x, i = .decode x) ∧ (respondTo nmax i).syndrome ≠ 0)
      ∧ ((respondTo nmax i).uncorrectable = true ↔ ∃ x, i = .decode x ∧ x.n < (respondTo nmax i).syndrome)
      ∧ ((respondTo nmax i).isValid = true ↔
          (∃ x, i = .isvalid x) ∧ (respondTo nmax i).status = .ok ∧ (respondTo nmax i).syndrome = 0) := by
  rw [respondTo]
  rcases outcomeOf_cases nmax i with ⟨e, he, -⟩ | ⟨x, rfl, -, -, he⟩ | ⟨x, rfl, -, -, he⟩
    | ⟨x, rfl, -, -, he⟩ <;> rw [he]
  · cases e <;> simp [respond, zeroResponse, errorStatus]
  · simp [respond]
  · simp [respond, hammingDecoder_eq]
  · simp [respond, parityChecker_eq]

/-- Settles O53, for the response `respondTo` that every operation writes. -/
theorem flagsAreSetOnlyByTheirOperations : Obligations.FlagsAreSetOnlyByTheirOperations := by
  intro i s t h
  rw [exec_next h, State.complete_resp]
  exact respondTo_flags s.cfg.nmax i

theorem opCode_eq_decode_iff (i : Instr) : i.opCode = 0b01#2 ↔ ∃ x, i = .decode x := by
  cases i <;> simp [Instr.opCode]

theorem opCode_eq_isvalid_iff (i : Instr) : i.opCode = 0b10#2 ↔ ∃ x, i = .isvalid x := by
  cases i <;> simp [Instr.opCode]

theorem opCode_eq_reserved_iff (i : Instr) : i.opCode = 0b11#2 ↔ ∃ x, i = .reserved x := by
  cases i <;> simp [Instr.opCode]

/-- Every response is coherent: the flags are those of the operation that the echoed op names. -/
theorem respondTo_coherent (nmax : Nat) (i : Instr) : ResponseCoherent nmax (respondTo nmax i) := by
  obtain ⟨hhad, hunc, hval⟩ := respondTo_flags nmax i
  refine ⟨fun k _ hk => respondTo_lanes nmax i hk, fun h => ?_, ?_, ?_, ?_⟩
  · obtain ⟨x, hx, hS⟩ := hunc.mp h
    exact hhad.mpr ⟨⟨x, hx⟩, Nat.ne_zero_of_lt hS⟩
  · rw [hhad, respondTo_op, opCode_eq_decode_iff]
    exact ⟨fun h => ⟨respondTo_ok_of_finding (.inr (.inr h.2)), h⟩, And.right⟩
  · rw [hval, respondTo_op, opCode_eq_isvalid_iff, and_left_comm]
  · rw [respondTo_op, opCode_eq_reserved_iff]
    refine ⟨reserved_of_illegalOp, ?_⟩
    rintro ⟨x, rfl⟩
    rfl

/-- The registers right after a Reset are coherent, whatever is driven next. -/
theorem coherent_of_zero {s : State} (hp : s.phase = .empty) (hw : s.wait = 0)
    (hreq : s.req = zeroRequest s.cfg.nmax) (hresp : s.resp = zeroResponse s.cfg.nmax) : s.Coherent where
  reqFits := hreq ▸ zeroRequest_fits s.cfg.nmax
  respFits := hresp ▸ zeroResponse_fits s.cfg.nmax
  respCoherent := hresp ▸ zeroResponse_coherent s.cfg.nmax
  waitBusy h := by simp [hp] at h
  waitIdle _ := hw
  emptyZero _ := ⟨hreq, hresp⟩
  fullAnswers h := by simp [hp] at h

/-- A BUSY state is coherent when its request fits, its old response is coherent and an edge is still to come. -/
theorem coherent_of_busy {s : State} (hp : s.phase = .busy) (hw : 1 ≤ s.wait) (hreq : RequestFits s.cfg.nmax s.req)
    (hresp : ResponseFits s.cfg.nmax s.resp ∧ ResponseCoherent s.cfg.nmax s.resp) : s.Coherent where
  reqFits := hreq
  respFits := hresp.1
  respCoherent := hresp.2
  waitBusy _ := hw
  waitIdle h := absurd hp h
  emptyZero h := by simp [hp] at h
  fullAnswers h := by simp [hp] at h

/-- A Complete writes the response to the latched request, which fits and is coherent. -/
theorem coherent_complete {s : State} (h : RequestFits s.cfg.nmax s.req) :
    (s.complete (respondTo s.cfg.nmax (decodeRequest s.req))).Coherent where
  reqFits := h
  respFits := respondTo_fits _ _
  respCoherent := respondTo_coherent _ _
  waitBusy hp := by simp at hp
  waitIdle _ := rfl
  emptyZero hp := by simp at hp
  fullAnswers _ := rfl

/-- Coherence is about the registers, not about what the host drives. -/
theorem coherent_afterDrive {s : State} (h : s.Coherent) : s.afterDrive.Coherent :=
  ⟨h.reqFits, h.respFits, h.respCoherent, h.waitBusy, h.waitIdle, h.emptyZero, h.fullAnswers⟩

/-- Every step from a coherent state ends in one; before the first Reset only a Reset is a step. -/
theorem coherent_of_step {s t : State} (hs : s.initialised = true → s.Coherent) (h : step s = .next t) :
    t.Coherent := by
  rcases step_next h with ⟨-, rfl⟩ | ⟨hc, rfl⟩ | ⟨ha, rfl⟩ | ⟨hi, -, hb, hw, rfl⟩ | ⟨hi, -, -, -, rfl⟩
  · exact coherent_of_zero rfl rfl rfl rfl
  · exact coherent_complete (s := s.afterDrive) (hs hc.1).reqFits
  · have hcoh := hs ha.1
    exact coherent_of_busy rfl (one_le_latency _ _ _) (fitRequest_fits _ _) ⟨hcoh.respFits, hcoh.respCoherent⟩
  · have hcoh := hs hi
    exact coherent_of_busy hb (Nat.le_sub_one_of_lt hw) hcoh.reqFits ⟨hcoh.respFits, hcoh.respCoherent⟩
  · exact coherent_afterDrive (hs hi)

theorem step_cfg {s t : State} (h : step s = .next t) : t.cfg = s.cfg := by
  rcases step_next h with ⟨-, rfl⟩ | ⟨-, rfl⟩ | ⟨-, rfl⟩ | ⟨-, -, -, -, rfl⟩ | ⟨-, -, -, -, rfl⟩ <;> rfl

/-- Settles O59: NMAX stays, and `coherent_of_step` goes through the five events of an edge. -/
theorem stepKeepsTheInvariant : Obligations.StepKeepsTheInvariant := by
  intro s t hinv h
  exact ⟨step_cfg h ▸ hinv.nmaxPos, fun _ => coherent_of_step hinv.coherent h⟩

/-- Settles O60: the reset states hold zeros, and a placed request is BUSY with the fields of a word of REQW bits. -/
theorem resetStateMeetsTheInvariant : Obligations.ResetStateMeetsTheInvariant := by
  have hreset (cfg : Config) (h : 1 ≤ cfg.nmax) : (State.resetOf cfg).Inv :=
    ⟨h, fun _ => coherent_of_zero rfl rfl rfl rfl⟩
  refine ⟨hreset, hreset Config.reference (by decide), fun s h hi => ⟨h, fun hi' => ?_⟩,
    fun s nbits w hinv hi => ?_⟩
  · simp [hi] at hi'
  · have hcoh := hinv.coherent hi
    exact ⟨hinv.nmaxPos, fun _ => coherent_of_busy rfl le_rfl (unpackRequest_fits _ _)
      ⟨hcoh.respFits, hcoh.respCoherent⟩⟩

end Sys2Proof.Proofs

/-! The edge as a whole: what each event may write, how the phase moves, and the edges at which nothing happens
(10_state.md sections 4 and 6). -/

namespace Sys2Proof.Proofs

open Sys2Proof.Machine

/-- Settles O5: of the edges of `step_cases` the one before the first Reset is the only fault. -/
theorem stepFaultsExactlyBeforeTheFirstReset : Obligations.StepFaultsExactlyBeforeTheFirstReset := by
  intro s
  constructor
  · rintro ⟨f, hf⟩
    rcases step_cases s with ⟨hi, hr, -⟩ | ⟨-, e⟩ | ⟨-, e⟩ | ⟨-, e⟩ | ⟨-, -, -, -, e⟩ | ⟨-, -, -, -, e⟩
    · exact ⟨hi, by simpa using hr⟩
    all_goals cases hf.symm.trans e
  · rintro ⟨hi, hr⟩
    exact ⟨_, step_beforeFirstReset hi (by simp [hr])⟩

/-- Settles O11: a placed request is at its Complete edge, where `step_of_completes_exec` names the operation. -/
theorem stepRunsTheDecodedOperation : Obligations.StepRunsTheDecodedOperation := by
  refine ⟨fun s v => ?_, fun s hs => step_of_completes_exec hs⟩
  have hcomplete : (s.withLatched v).Completes := ⟨rfl, rfl, rfl, le_rfl⟩
  exact step_of_completes_exec hcomplete

/-- Settles O12: in BUSY the edge is one of waiting, since it is no Complete; elsewhere it is that of
`step_of_no_event`. -/
theorem idleEdgeChangesNoRegister : Obligations.IdleEdgeChangesNoRegister := by
  intro s hi hr ha hc
  by_cases hb : s.phase = .busy
  · have hw : 1 < s.wait := Nat.lt_of_not_le fun hw => hc ⟨hi, by simpa using hr, hb, hw⟩
    refine ⟨_, step_of_waiting hi hr hb hw, ?_⟩
    rw [if_pos hb]
    rfl
  · refine ⟨_, step_of_no_event hi hb hr ha, ?_⟩
    rw [if_neg hb]
    rfl

/-- Settles O14: each event of `step_next` leaves the registers that it does not write. -/
theorem everyRegisterHasItsWriters : Obligations.EveryRegisterHasItsWriters := by
  intro s t h
  rcases step_next h with ⟨hr, rfl⟩ | ⟨hc, rfl⟩ | ⟨ha, rfl⟩ | ⟨-, -, -, -, rfl⟩ | ⟨-, -, -, -, rfl⟩
  · exact ⟨fun _ => .inr hr, fun _ => .inr hr, (absurd rfl ·), rfl⟩
  · exact ⟨fun _ => .inl hc, (absurd rfl ·), (absurd rfl ·), rfl⟩
  · exact ⟨(absurd rfl ·), fun _ => .inl ha, fun _ => ha, rfl⟩
  all_goals exact ⟨(absurd rfl ·), (absurd rfl ·), (absurd rfl ·), rfl⟩

/-- Settles O15: the three events make the three moves, and an edge of waiting or of nothing is none of them. -/
theorem phaseMovesOnlyByTheThreeEvents : Obligations.PhaseMovesOnlyByTheThreeEvents := by
  intro s t h
  rcases step_next h with ⟨hr, rfl⟩ | ⟨hc, rfl⟩ | ⟨ha, rfl⟩ | ⟨hi, hr, hb, hw, rfl⟩ | ⟨hi, hr, hb, hv, rfl⟩
  · exact .inl ⟨hr, rfl⟩
  · have hbusy : s.phase = .busy := hc.2.2.1
    exact .inr (.inr (.inl ⟨hc, hbusy, rfl⟩))
  · have hready : s.phase ≠ .busy := ha.2.2.1
    exact .inr (.inl ⟨ha, hready, rfl⟩)
  · exact .inr (.inr (.inr ⟨hi, hr, fun ⟨_, _, hready, _⟩ => hready hb,
      fun ⟨_, _, _, hw'⟩ => Nat.not_le.mpr hw hw', rfl⟩))
  · exact .inr (.inr (.inr ⟨hi, hr, fun ⟨_, _, _, hv'⟩ => by simp [hv] at hv',
      fun ⟨_, _, hbusy, _⟩ => hb hbusy, rfl⟩))

end Sys2Proof.Proofs

/-! From an Accept to its Complete (70_reset_and_hazards.md R103 with R21): a run through BUSY over any pins without
rst. -/

namespace Sys2Proof.Proofs

open Sys2Proof.Machine

/-- An edge in BUSY with raw pins before the Complete edge: only the latency count moves. -/
theorem step_drive_of_waiting {s : State} {p : Pins} {rest : List HostAction} (hi : s.initialised = true)
    (hb : s.phase = .busy) (hw : 1 < s.wait) (hr : p.rst = false) :
    step { s with script := .drive p :: rest } = .next ({ s with script := rest } : State).waitEdge :=
  step_of_waiting (s := { s with script := .drive p :: rest }) hi (by simp [hr]) hb hw

/-- The Complete edge with raw pins. -/
theorem step_drive_of_completes {s : State} {p : Pins} {rest : List HostAction} (hi : s.initialised = true)
    (hb : s.phase = .busy) (hw : s.wait ≤ 1) (hr : p.rst = false) :
    step { s with script := .drive p :: rest }
      = .next (({ s with script := rest } : State).complete (respondTo s.cfg.nmax (decodeRequest s.req))) :=
  step_of_completes (s := { s with script := .drive p :: rest }) ⟨hi, hr, hb, hw⟩

/-- A BUSY block with as many edges to come as raw pins are driven, by induction on the pins: before the last edge it is
still BUSY with the same REQ and RESP, and the last edge is the Complete. -/
theorem edges_of_busy (p : Pins) (ps : List Pins) (rest : List HostAction) {s : State} (hi : s.initialised = true)
    (hb : s.phase = .busy) (hw : s.wait = ps.length + 1) (hr : ∀ q ∈ p :: ps, q.rst = false) :
    (∀ j, j < ps.length + 1 → ∃ u,
        edges j { s with script := (p :: ps).map HostAction.drive ++ rest } = .next u
          ∧ u.phase = .busy ∧ u.resp = s.resp ∧ u.req = s.req)
      ∧ edges (ps.length + 1) { s with script := (p :: ps).map HostAction.drive ++ rest }
          = .next (({ s with script := rest } : State).complete (respondTo s.cfg.nmax (decodeRequest s.req))) := by
  have hrp : p.rst = false := hr p List.mem_cons_self
  induction ps generalizing p s with
  | nil =>
    refine ⟨fun j hj => ?_, edges_succ (step_drive_of_completes hi hb hw.le hrp) 0⟩
    obtain rfl : j = 0 := Nat.lt_one_iff.mp hj
    exact ⟨_, rfl, hb, rfl, rfl⟩
  | cons q ps ih =>
    have hstep := step_drive_of_waiting (rest := (q :: ps).map HostAction.drive ++ rest) hi hb
      (by rw [hw, List.length_cons]; omega) hrp
    have hrs : ∀ q' ∈ q :: ps, q'.rst = false := fun q' hq' => hr q' (List.mem_cons_of_mem p hq')
    have hwait : s.waitEdge.wait = ps.length + 1 := by rw [State.waitEdge_wait, hw]; rfl
    obtain ⟨hbusy, hlast⟩ := ih q (s := s.waitEdge) hi hb hwait hrs (hrs q List.mem_cons_self)
    refine ⟨fun j hj => ?_, (edges_succ hstep _).trans hlast⟩
    cases j with
    | zero => exact ⟨_, rfl, hb, rfl, rfl⟩
    | succ j =>
      obtain ⟨u, hu, hfields⟩ := hbusy j (Nat.lt_of_succ_lt_succ hj)
      exact ⟨u, (edges_succ hstep j).trans hu, hfields⟩

/-- Outside BUSY the edge of a request line accepts its bundle and drops the line. -/
theorem step_request_of_ready {s : State} {r : Request} {rest : List HostAction} (hi : s.initialised = true)
    (hb : s.phase ≠ .busy) :
    step { s with script := .request r :: rest } = .next { s.accept r with script := rest } := by
  have hready : reqReady ({ s with script := .request r :: rest } : State).hostPhase = true := by
    rw [State.hostPhase, if_pos hi, reqReady_eq]
    exact decide_eq_true hb
  have hdropped : ({ s with script := .request r :: rest } : State).afterDrive = { s with script := rest } := by
    rw [State.afterDrive, hostEdge, hready]
    rfl
  rw [step_of_accepts (s := { s with script := .request r :: rest }) ⟨hi, rfl, hb, rfl⟩, hdropped]
  rfl

/-- Settles O16: the Accept edge, then `edges_of_busy` for the model's latency, which is at least 1. -/
theorem acceptedRequestIsAnsweredAfterItsLatency : Obligations.AcceptedRequestIsAnsweredAfterItsLatency := by
  intro s r rest hi hb hfits
  refine ⟨latency s.cfg.nmax s.draws r, one_le_latency _ _ _, fun ps hlen hr => ?_⟩
  have haccept := step_request_of_ready (r := r) (rest := ps.map HostAction.drive ++ rest) hi hb
  rw [accept_of_fits hfits] at haccept
  cases ps with
  | nil => exact absurd hlen (Nat.ne_of_lt (one_le_latency _ _ _))
  | cons p ps =>
    obtain ⟨hbusy, hlast⟩ := edges_of_busy p ps rest (s := s.accept r) hi rfl
      (by rw [accept_of_fits hfits]; exact hlen.symm) hr
    rw [accept_of_fits hfits] at hbusy hlast
    rw [← hlen, List.length_cons]
    refine ⟨fun j hj => ?_, ?_⟩
    · rw [Nat.add_comm, edges_succ haccept]
      exact hbusy j hj
    · rw [Nat.add_comm, edges_succ haccept]
      exact hlast

end Sys2Proof.Proofs

/-! The packed request and its bytes (30_encoding.md R40, log 9): decoding what was encoded gives the operation back. -/

namespace Sys2Proof.Proofs

open Sys2Proof.Machine

/-- The field of each bit of a packed request: the fields' ranges do not meet, and below the first lane no lane has a
bit. -/
theorem packRequest_field_bits (nmax : Nat) (r : Request) (v : BitVec (reqWidth nmax))
    (hv : v = packRequest nmax r) :
    (∀ k, k < 2 → v.getLsbD k = r.op.getLsbD k)
      ∧ (∀ k, k < fieldWidth nmax → v.getLsbD (2 + k) = r.m.testBit k)
      ∧ (∀ k, k < fieldWidth nmax → v.getLsbD (fieldWidth nmax + 2 + k) = r.n.testBit k)
      ∧ (∀ k, k < fieldWidth nmax → v.getLsbD (2 * fieldWidth nmax + 2 + k) = r.len.testBit k)
      ∧ ∀ j k, j < nmax → k < 8 → v.getLsbD (laneOffset nmax j + k) = (lane r.sym j).getLsbD k := by
  subst hv
  have hwidth : reqWidth nmax = 2 + 3 * fieldWidth nmax + 8 * nmax := rfl
  have hlow (i : Nat) (hi : i < 3 * fieldWidth nmax + 2) :=
    packLanes_low nmax r.sym (List.range nmax) hi
  refine ⟨fun k hk => ?_, fun k hk => ?_, fun k hk => ?_, fun k hk => ?_, fun j k hj hk => ?_⟩
  case refine_5 =>
    have hoff : laneOffset nmax j = 3 * fieldWidth nmax + 2 + 8 * j := rfl
    rw [packRequest, BitVec.getLsbD_or, packLanes_lane nmax r.sym hj hk]
    simp (disch := omega) only [BitVec.getLsbD_or, place_getLsbD_of_lt, decide_eq_false, Bool.and_false,
      Bool.false_and, Bool.false_or]
  all_goals
    simp (disch := omega) only [packRequest, BitVec.getLsbD_or, place_getLsbD_of_lt, hlow, decide_eq_true,
      decide_eq_false, Bool.true_and, Bool.and_true, Bool.false_and, Bool.and_false, Bool.or_false, Bool.false_or,
      Nat.add_sub_cancel_left, Nat.sub_zero, BitVec.testBit_toNat]

/-- A bundle that the pins can carry is read back from its packed form. -/
theorem unpackRequest_packRequest {nmax : Nat} {r : Request} (h : RequestFits nmax r) :
    unpackRequest nmax (packRequest nmax r) = r := by
  obtain ⟨hm, hn, hlen, hsym⟩ := h
  obtain ⟨bop, bm, bn, blen, blane⟩ := packRequest_field_bits nmax r _ rfl
  have hop : (packRequest nmax r).extractLsb' 0 2 = r.op := extractLsb'_eq_of_bits (by simpa using bop)
  have hlanes : ((List.range nmax).map fun j => (packRequest nmax r).extractLsb' (laneOffset nmax j) 8) = r.sym := by
    refine List.ext_getElem (by simp [hsym]) fun j _ hj => ?_
    rw [List.getElem_map, List.getElem_range, extractLsb'_eq_of_bits fun k => blane j k (hsym ▸ hj)]
    simp [lane, hj]
  rw [unpackRequest, hop, slice_eq_of_bits hm bm, slice_eq_of_bits hn bn, slice_eq_of_bits hlen blen, hlanes]

theorem decode_encode {nmax : Nat} {i : Instr} (h : i.wellFormed nmax = true) : decode nmax (encode nmax i) = i := by
  rw [decode, encode, unpackRequest_packRequest ((wellFormed_iff_fits nmax i).mp h), decodeRequest_toRequest]

/-- Settles O19: a well-formed operation is a bundle that fits, and each of its fields is read back. -/
theorem decodeOfEncodeIsTheOperation : Obligations.DecodeOfEncodeIsTheOperation :=
  fun _ _ h => decode_encode h

/-- Settles O21: a bundle is its operation, and a word is the packed form of its fields, which fit. -/
theorem encodeOfDecodeIsTheWord : Obligations.EncodeOfDecodeIsTheWord := by
  intro nmax v
  have hbundle : (decode nmax v).toRequest = unpackRequest nmax v := toRequest_decodeRequest _
  refine ⟨?_, ?_⟩
  · rw [encode, hbundle, packRequest_unpackRequest]
  · rw [wellFormed_iff_fits, hbundle]
    exact unpackRequest_fits nmax v

/-- The bytes of a request hold all its bits. -/
theorem two_pow_reqWidth_le (nmax : Nat) : 2 ^ reqWidth nmax ≤ 256 ^ reqBytes nmax := by
  have hbits : reqWidth nmax ≤ 8 * reqBytes nmax := by
    rw [reqBytes]
    omega
  calc 2 ^ reqWidth nmax ≤ 2 ^ (8 * reqBytes nmax) := Nat.pow_le_pow_right Nat.two_pos hbits
    _ = 256 ^ reqBytes nmax := Nat.pow_mul 2 8 _

theorem natOfBytes_encodeBytes (nmax : Nat) (i : Instr) :
    natOfBytes (encodeBytes nmax i) = (encode nmax i).toNat := by
  rw [encodeBytes, natOfBytes_bytesOfNat, Nat.mod_eq_of_lt]
  exact (encode nmax i).isLt.trans_le (two_pow_reqWidth_le nmax)

/-- The three answers of the byte decoder. -/
theorem decodeBytes_wrongByteCount {nmax : Nat} {bs : List Byte} (h : bs.length ≠ reqBytes nmax) :
    decodeBytes nmax bs = .error .wrongByteCount :=
  if_pos h

theorem decodeBytes_bitAboveRequest {nmax : Nat} {bs : List Byte} (h : bs.length = reqBytes nmax)
    (hv : 2 ^ reqWidth nmax ≤ natOfBytes bs) : decodeBytes nmax bs = .error .bitAboveRequest := by
  rw [decodeBytes, if_neg (not_not.mpr h), if_pos hv]

theorem decodeBytes_ok {nmax : Nat} {bs : List Byte} (h : bs.length = reqBytes nmax)
    (hv : natOfBytes bs < 2 ^ reqWidth nmax) :
    decodeBytes nmax bs = .ok (decode nmax (BitVec.ofNat _ (natOfBytes bs))) := by
  rw [decodeBytes, if_neg (not_not.mpr h), if_neg (Nat.not_le.mpr hv)]

theorem decodeBytes_encodeBytes {nmax : Nat} {i : Instr} (h : i.wellFormed nmax = true) :
    decodeBytes nmax (encodeBytes nmax i) = .ok i := by
  have hlen : (encodeBytes nmax i).length = reqBytes nmax := bytesOfNat_length _ _
  rw [decodeBytes_ok hlen (natOfBytes_encodeBytes nmax i ▸ (encode nmax i).isLt), natOfBytes_encodeBytes,
    BitVec.ofNat_toNat, BitVec.setWidth_eq, decode_encode h]

/-- Settles O24: the three answers have three different conditions, of which one always holds. -/
theorem byteDecoderIsTotalAndInverse : Obligations.ByteDecoderIsTotalAndInverse := by
  refine fun nmax => ⟨fun i h => decodeBytes_encodeBytes h, fun bs => ?_⟩
  by_cases h : bs.length = reqBytes nmax
  · by_cases hv : 2 ^ reqWidth nmax ≤ natOfBytes bs
    · simp [decodeBytes_bitAboveRequest h hv, h, hv]
    · have hlt := Nat.lt_of_not_le hv
      simp [decodeBytes_ok h hlt, h, hlt]
  · simp [decodeBytes_wrongByteCount h, h]

/-- Settles O23: four closed words, which the decoder evaluates. -/
theorem wordsOfTheVectorsDecode : Obligations.WordsOfTheVectorsDecode :=
  ⟨by decide, by decide, by decide, by decide⟩

end Sys2Proof.Proofs

/-! The gates and the positions (40_parameters.md R60 to R62): which numbers are parity positions, and the ranges of
parity indices and syndromes. -/

namespace Sys2Proof.Proofs

open Sys2Proof.Machine

/-- With m = n - rmin(n) the other clauses of ENCODE's gate follow from n being in 1..NMAX. -/
theorem encodeParamsGood_iff (nmax m n : Nat) :
    EncodeParamsGood nmax m n ↔ 1 ≤ n ∧ n ≤ nmax ∧ m + rmin n = n := by
  constructor
  · rintro ⟨hfits, hm, -, hsum⟩
    exact ⟨one_le_of_add_rmin hsum hm, hfits, hsum⟩
  · rintro ⟨h1, hfits, hsum⟩
    have hpos : 1 ≤ rmin n := rmin_pos h1
    exact ⟨hfits, by omega, le_two_pow_of_gate hsum, hsum⟩

/-- Settles O28: each gate is the absence of its failures. -/
theorem gateAcceptsExactlyOneDataLength : Obligations.GateAcceptsExactlyOneDataLength := by
  intro nmax m n
  rw [paramsOkEncode_iff_good, encodeParamsGood_iff, paramsOkDecode_iff_good]
  exact ⟨Iff.rfl, Iff.rfl⟩

/-- If n + 1 is a power of two, its exponent is rmin(n). -/
theorem succ_eq_two_pow_rmin {n : Nat} (h : isPow2 (n + 1) = true) : n + 1 = 2 ^ rmin n := by
  obtain ⟨k, hk⟩ := (isPow2_iff (Nat.succ_pos n)).mp h
  have hle : rmin n ≤ k := rmin_le_of_lt_two_pow (by omega)
  have hpow : 2 ^ rmin n ≤ 2 ^ k := Nat.pow_le_pow_right Nat.two_pos hle
  have hlt : n < 2 ^ rmin n := lt_two_pow_rmin n
  omega

/-- The parity positions of 1..n, in order: the position n + 1 is one exactly when the parity count grows there. -/
theorem parity_positions (n : Nat) : (positions n).filter isPow2 = (List.range (rmin n)).map (2 ^ ·) := by
  induction n with
  | zero => rfl
  | succ n ih =>
    rw [positions_succ, List.filter_append, ih, rmin_succ]
    cases h : isPow2 (n + 1) with
    | false => simp [h]
    | true => simp [List.range_succ, succ_eq_two_pow_rmin h, isPow2_two_pow]

/-- Settles O29: `parity_positions` and `data_count` by induction on n, and positions are a range. -/
theorem parityPositionsAreThePowersOfTwo : Obligations.ParityPositionsAreThePowersOfTwo :=
  fun n => ⟨parity_positions n, data_count n, fun _ => mem_positions, List.pairwise_lt_range'⟩

/-- Every position of 1..n has its bits below rmin(n). -/
theorem lt_two_pow_of_mem_positions {n pos : Nat} (h : pos ∈ positions n) : pos < 2 ^ rmin n :=
  (mem_positions.mp h).2.trans_lt (lt_two_pow_rmin n)

theorem rmin_eq_bitlength (n : Nat) : rmin n = bitlength n := by
  refine rmin_eq_of_between (lt_two_pow_bitlength n) fun q hq => ?_
  by_cases hn : n = 0
  · simp [bitlength, hn] at hq
  · rw [bitlength, if_neg hn] at hq
    exact (Nat.pow_le_pow_right Nat.two_pos (Nat.le_of_lt_succ hq)).trans (Nat.log2_self_le hn)

/-- Settles O30, from both sides of rmin(n) and from `syndrome_lt`. -/
theorem parityIndicesAndSyndromesStayInRange : Obligations.ParityIndicesAndSyndromesStayInRange :=
  fun n => ⟨fun _ hk => ⟨Nat.one_le_two_pow, two_pow_le_of_lt_rmin hk⟩, fun _ => lt_two_pow_of_mem_positions,
    fun c => syndrome_lt c n (rmin n), rmin_eq_bitlength n⟩

end Sys2Proof.Proofs

/-! The code itself: the encoded word, its syndrome, and what errors do to it (41_encoder.md R65, R67; 42_decoder.md
R69, R72, R74, R76). -/

namespace Sys2Proof.Proofs

open Sys2Proof.Machine

/-- A parity over the interleaved word is one over its data positions, since the others hold 0. -/
theorem parityOver_interleave (d : List Bool) (n k : Nat) :
    parityOver (interleave d n) n (2 ^ k)
      = xorAll (((positions n).filter fun pos => !isPow2 pos && pos &&& 2 ^ k != 0).map
          (bitAt (interleave d n))) := by
  rw [parityOver, xorAll_filter_map, xorAll_filter_map]
  refine xorAll_map_congr fun pos hpos => ?_
  rw [bitAt_interleave hpos]
  cases isPow2 pos <;> simp

/-- A parity position of 1..n is 2^k for a parity index k. -/
theorem exists_parity_index {n pos : Nat} (hpos : pos ∈ positions n) (hpow : isPow2 pos = true) :
    ∃ k, k < rmin n ∧ pos = 2 ^ k := by
  obtain ⟨h1, h2⟩ := mem_positions.mp hpos
  obtain ⟨k, rfl⟩ := (isPow2_iff h1).mp hpow
  exact ⟨k, lt_rmin_of_two_pow_le h2, rfl⟩

/-- The rounds in any order make the encoder's word: every position holds what `hammingEncoder_spec` says of it. -/
theorem parityRounds_perm {n : Nat} {ks : List Nat} (d : List Bool) (h : ks.Perm (List.range (rmin n))) :
    ks.foldl (parityRound n) (interleave d n) = hammingEncoder d n (rmin n) := by
  have hmem (k : Nat) : k ∈ ks ↔ k < rmin n := h.mem_iff.trans List.mem_range
  obtain ⟨hlen, -, hdata, hparity⟩ := parityRounds_spec ks (h.nodup_iff.mpr List.nodup_range)
    (fun k hk => (hmem k).mp hk) (interleave_length d n) (fun k hk => bitAt_interleave_parity ((hmem k).mp hk))
  obtain ⟨hlen', -, hdata', hparity'⟩ := hammingEncoder_spec d n
  refine codeword_ext hlen hlen' fun pos hpos => ?_
  cases hpow : isPow2 pos with
  | true =>
    obtain ⟨k, hk, rfl⟩ := exists_parity_index hpos hpow
    rw [hparity k ((hmem k).mpr hk), hparity' k hk]
  | false =>
    have hfree : ∀ k ∈ ks, pos ≠ 2 ^ k := by
      rintro k - rfl
      simp [isPow2_two_pow] at hpow
    rw [hdata pos hpos hfree, hdata' pos hpos hpow]

/-- Settles O33: `hammingEncoder_spec` gives both kinds of positions, and `parityRounds_perm` the order. -/
theorem parityBitsDoNotDependOnTheOrder : Obligations.ParityBitsDoNotDependOnTheOrder := by
  intro n d _
  obtain ⟨-, -, hdata, hparity⟩ := hammingEncoder_spec d n
  refine ⟨fun k hk => ?_, hdata, fun ks => parityRounds_perm d⟩
  rw [hparity k hk, parityOver_interleave]

/-- Every parity that the syndrome looks at is 0 in an encoded word. -/
theorem syndrome_hammingEncoder (d : List Bool) (n : Nat) :
    syndrome (hammingEncoder d n (rmin n)) n (rmin n) = 0 := by
  obtain ⟨-, hzero, -, -⟩ := hammingEncoder_spec d n
  apply Nat.eq_of_testBit_eq
  intro k
  rw [syndrome_testBit, Nat.zero_testBit]
  by_cases hk : k < rmin n
  · rw [hzero k hk, Bool.and_false]
  · rw [decide_eq_false hk, Bool.false_and]

/-- Settles O34, by the encoder's parities. -/
theorem encodedWordHasSyndromeZero : Obligations.EncodedWordHasSyndromeZero :=
  fun n d _ => syndrome_hammingEncoder d n

theorem testBit_xorPositions (E : List Nat) (k : Nat) :
    (xorPositions E).testBit k = xorAll (E.map fun pos => pos.testBit k) := by
  induction E with
  | nil => exact Nat.zero_testBit k
  | cons p E ih =>
    have hcons : xorPositions (p :: E) = p ^^^ xorPositions E := rfl
    rw [hcons, Nat.testBit_xor, ih, List.map_cons, xorAll_cons]

/-- Bit k of the syndrome and of the exclusive-or are one parity below rmin(n), and above it no position has a bit. -/
theorem syndrome_eq_xorPositions (c : List Bool) (n : Nat) :
    syndrome c n (rmin n) = xorPositions ((positions n).filter (bitAt c)) := by
  apply Nat.eq_of_testBit_eq
  intro k
  rw [syndrome_testBit, testBit_xorPositions, xorAll_filter_map]
  by_cases hk : k < rmin n
  · rw [decide_eq_true hk, Bool.true_and, parityOver_eq]
    simp only [Bool.and_comm]
  · have hpow : 2 ^ rmin n ≤ 2 ^ k := Nat.pow_le_pow_right Nat.two_pos (Nat.le_of_not_lt hk)
    rw [decide_eq_false hk, Bool.false_and, ← xorAll_map_false (positions n)]
    refine xorAll_map_congr fun pos hpos => ?_
    rw [Nat.testBit_lt_two_pow ((lt_two_pow_of_mem_positions hpos).trans_le hpow), Bool.and_false]

/-- Each error position exclusive-ors itself into the syndrome. -/
theorem syndrome_flipAll {n : Nat} {c : List Bool} {E : List Nat} (hc : c.length = n)
    (hE : ∀ pos ∈ E, pos ∈ positions n) :
    syndrome (flipAll c E) n (rmin n) = syndrome c n (rmin n) ^^^ xorPositions E := by
  induction E generalizing c with
  | nil => exact (Nat.xor_zero _).symm
  | cons p E ih =>
    rw [flipAll_cons, ih ((flipAt_length c p).trans hc) fun pos h => hE pos (List.mem_cons_of_mem p h),
      syndrome_flipAt hc (hE p List.mem_cons_self), Nat.xor_assoc]
    rfl

/-- Settles O36, by the bits of the syndrome and by induction on E. -/
theorem syndromeIsTheXorOfThePositionsHoldingOne : Obligations.SyndromeIsTheXorOfThePositionsHoldingOne :=
  fun n c hc => ⟨syndrome_eq_xorPositions c n, fun _ _ hE => syndrome_flipAll hc hE⟩

theorem extract_hammingEncoder {n : Nat} {d : List Bool} (hd : d.length + rmin n = n) :
    extract (hammingEncoder d n (rmin n)) n = d := by
  obtain ⟨hlen, -, hdata, -⟩ := hammingEncoder_spec d n
  rw [extract_congr hlen (interleave_length d n) hdata, extract_interleave hd]

/-- Settles O39: the extractor reads the data positions alone, and on the interleaved word it gives d back. -/
theorem extractorUndoesTheEncoder : Obligations.ExtractorUndoesTheEncoder :=
  fun _ _ hd => extract_hammingEncoder hd

/-- A number between two neighbouring powers of two is its top bit with a position below it. -/
theorem xor_top_bit_lt {x k : Nat} (h1 : 2 ^ k ≤ x) (h2 : x < 2 ^ (k + 1)) : 2 ^ k ^^^ x < 2 ^ k := by
  refine Nat.lt_pow_two_of_testBit _ fun i hi => ?_
  rw [Nat.testBit_xor]
  rcases hi.eq_or_lt with rfl | hlt
  · rw [testBit_of_between h1 h2, Nat.testBit_two_pow_self]
    rfl
  · have hpow : 2 ^ (k + 1) ≤ 2 ^ i := Nat.pow_le_pow_right Nat.two_pos hlt
    rw [testBit_two_pow_other hlt.ne, Nat.testBit_lt_two_pow (h2.trans_le hpow)]
    rfl

/-- If n + 1 is no power of two, two flips in the all-zero word give the syndrome n + 1: the top bit's position and the
rest of n + 1. -/
theorem exists_syndrome_succ {n : Nat} (hn : 1 ≤ n) (h : isPow2 (n + 1) = false) :
    ∃ c : List Bool, c.length = n ∧ syndrome c n (rmin n) = n + 1 := by
  obtain ⟨k, hk⟩ : ∃ k, rmin n = k + 1 := ⟨rmin n - 1, by have := rmin_pos hn; omega⟩
  have htop : 2 ^ k ≤ n := two_pow_le_of_lt_rmin (by omega)
  have hne (j : Nat) : n + 1 ≠ 2 ^ j := by
    intro hj
    rw [hj, isPow2_two_pow] at h
    cases h
  have hlt : n + 1 < 2 ^ (k + 1) := by
    have hlt := lt_two_pow_rmin n
    rw [hk] at hlt
    exact lt_of_le_of_ne hlt (hne _)
  have hrest : 2 ^ k ^^^ (n + 1) < 2 ^ k := xor_top_bit_lt (by omega) hlt
  have hpos : 2 ^ k ^^^ (n + 1) ≠ 0 := fun h0 => hne k (Nat.xor_eq_zero_iff.mp h0).symm
  have hE : ∀ pos ∈ [2 ^ k, 2 ^ k ^^^ (n + 1)], pos ∈ positions n := by
    simp only [List.mem_cons, List.not_mem_nil, or_false, mem_positions]
    rintro pos (rfl | rfl)
    · exact ⟨Nat.one_le_two_pow, htop⟩
    · omega
  have hxor : xorPositions [2 ^ k, 2 ^ k ^^^ (n + 1)] = n + 1 :=
    (congrArg _ (Nat.xor_zero _)).trans (Nat.xor_xor_cancel_left (2 ^ k) (n + 1))
  refine ⟨flipAll (List.replicate n false) [2 ^ k, 2 ^ k ^^^ (n + 1)], by simp, ?_⟩
  rw [syndrome_flipAll List.length_replicate hE, syndrome_replicate_false, Nat.zero_xor, hxor]

/-- Settles O40: no syndrome exceeds n when n + 1 is 2^rmin(n), and else n + 1 is the syndrome of some word. -/
theorem uncorrectableBranchIsLiveExactlyForShortenedCodes :
    Obligations.UncorrectableBranchIsLiveExactlyForShortenedCodes := by
  intro n hn
  simp only [hammingDecoder_eq, decide_eq_true_iff]
  constructor
  · rintro ⟨c, -, hS⟩
    by_contra hpow
    have hfull : n + 1 = 2 ^ rmin n := succ_eq_two_pow_rmin (by simpa using hpow)
    have hlt : syndrome c n (rmin n) < 2 ^ rmin n := syndrome_lt c n (rmin n)
    omega
  · intro h
    obtain ⟨c, hc, hS⟩ := exists_syndrome_succ hn h
    exact ⟨c, hc, hS ▸ Nat.lt_succ_self n⟩

/-- Two different positions never cancel. -/
theorem three_le_of_xorPositions_eq_zero {E : List Nat} (hnd : E.Nodup) (h2 : 2 ≤ E.length)
    (h0 : xorPositions E = 0) : 3 ≤ E.length := by
  by_contra hlt
  obtain ⟨a, b, rfl⟩ := List.length_eq_two.mp (by omega : E.length = 2)
  have hxor : a ^^^ (b ^^^ 0) = 0 := h0
  rw [Nat.xor_zero, Nat.xor_eq_zero_iff] at hxor
  simp [hxor] at hnd

/-- Settles O41: the syndrome is the exclusive-or of E, and each of its three cases is a case of the corrector. -/
theorem multipleErrorsAreTreatedByTheirXor : Obligations.MultipleErrorsAreTreatedByTheirXor := by
  rintro n d E _ hnd hE h2 c' rfl
  have hS : syndrome (flipAll (hammingEncoder d n (rmin n)) E) n (rmin n) = xorPositions E := by
    rw [syndrome_flipAll (hammingEncoder_length d n) hE, syndrome_hammingEncoder, Nat.zero_xor]
  rw [hammingDecoder, hS]
  refine ⟨rfl, fun h0 => ?_, fun h1 hn => ?_, fun hn => ?_⟩
  · rw [h0, correct_zero]
    exact ⟨three_le_of_xorPositions_eq_zero hnd h2 h0, rfl, rfl, rfl⟩
  · rw [correct_position h1 hn]
    exact ⟨rfl, rfl, rfl⟩
  · rw [correct_beyond hn]
    exact ⟨rfl, rfl, rfl⟩

end Sys2Proof.Proofs

/-! ENCODE and DECODE one after the other, and DECODE beside ISVALID (42_decoder.md R75, 43_parity_checker.md R79). -/

namespace Sys2Proof.Proofs

open Sys2Proof.Machine

theorem respondTo_syndrome_of_error {nmax : Nat} {i : Instr} (h : (respondTo nmax i).status ≠ .ok) :
    (respondTo nmax i).syndrome = 0 := by
  rw [respondTo_of_error h]
  rfl

/-- Settles O56: both have the same checks, an error has no syndrome, and a success the syndrome of the same word. -/
theorem isvalidAgreesWithDecode : Obligations.IsvalidAgreesWithDecode := by
  intro x s
  refine ⟨_, _, exec_eq (.decode x) s, exec_eq (.isvalid x) s, ?_⟩
  simp only [State.complete_resp]
  have hstatus : (respondTo s.cfg.nmax (.decode x)).status = (respondTo s.cfg.nmax (.isvalid x)).status := by
    rw [respondTo_decode_status, respondTo_isvalid_status]
  refine ⟨hstatus, ?_⟩
  by_cases hok : (respondTo s.cfg.nmax (.decode x)).status = .ok
  · rw [respondTo_decode_of_ok hok, respondTo_isvalid_of_ok (hstatus ▸ hok), hammingDecoder_eq, parityChecker_eq]
    simp [respond]
  · rw [respondTo_syndrome_of_error hok, respondTo_syndrome_of_error (hstatus ▸ hok)]
    exact ⟨rfl, fun h => absurd h hok⟩

/-- Lanes that carry the symbols of a word within the capacity pass the input check. -/
theorem inputGood_of_symbols {nmax : Nat} {x : Operands} {d : List Bool} (hlen : x.len = d.length)
    (hcap : d.length ≤ nmax) (hlane : ∀ j, j < d.length → lane x.sym j = bitSymbol (d.getD j false)) :
    InputGood nmax x d.length := by
  refine ⟨hlen, hlen ▸ hcap, fun j hj => ?_⟩
  rw [hlane j (hlen ▸ hj)]
  exact bitSymbol_binary _

section ThroughTheBlock

variable {nmax n : Nat} {d : List Bool} (h1 : 1 ≤ n) (hn : n ≤ nmax) (hd : d.length + rmin n = n)
include h1 hn hd

/-- The lanes that ENCODE of a data word writes: bit j is bit j of the codeword. -/
theorem respondTo_encode_symbols {x : Operands} (hm : x.m = d.length) (hxn : x.n = n) (hlen : x.len = d.length)
    (hlane : ∀ j, j < d.length → lane x.sym j = bitSymbol (d.getD j false)) {j : Nat} (hj : j < n) :
    (respondTo nmax (.encode x)).bits.getD j false = bitAt (hammingEncoder d n (rmin n)) (j + 1) := by
  have hcap : d.length ≤ nmax := by omega
  have hinput : InputGood nmax x x.m := hm ▸ inputGood_of_symbols hlen hcap hlane
  have hparams : EncodeParamsGood nmax x.m x.n := by
    rw [hm, hxn]
    exact (encodeParamsGood_iff nmax d.length n).mpr ⟨h1, hn, hd⟩
  have hr : n - d.length = rmin n := by omega
  have hlt : j < (hammingEncoder d n (rmin n)).length := (hammingEncoder_length d n).symm ▸ hj
  rw [respondTo_encode_good hinput hparams, hm, hxn, laneBits_of_symbols hlane, hr, List.getD_append _ _ _ _ hlt]
  rfl

/-- The response to DECODE of a received word w whose corrected word carries the data word d. -/
theorem respondTo_decode_symbols {y : Operands} {w : List Bool} {S : Nat} (hw : w.length = n) (hyn : y.n = n)
    (hlen : y.len = n) (hlane : ∀ j, j < n → lane y.sym j = bitSymbol (w.getD j false))
    (hS : syndrome w n (rmin n) = S) (hdata : extract (correctedWord w n S) n = d) :
    respondTo nmax (.decode y)
      = { status := .ok, op := 0b01#2, len := d.length, bits := d ++ List.replicate (nmax - d.length) false,
          r := rmin n, syndrome := S, hadError := decide (S ≠ 0), uncorrectable := decide (n < S),
          isValid := false } := by
  subst hw
  have hinput : InputGood nmax y y.n := hyn ▸ inputGood_of_symbols hlen hn hlane
  have hparams : DecodeParamsGood nmax y.n := hyn ▸ ⟨h1, hn⟩
  have hbits : w = laneBits y y.n := (hyn ▸ laneBits_of_symbols hlane).symm
  have hk : w.length - rmin w.length = d.length := by omega
  rw [respondTo_decode_good hinput hparams hbits (hyn ▸ hS.symm), hyn, hdata, hk]

end ThroughTheBlock

/-- Settles O57: DECODE receives the codeword, whose syndrome is 0, and extracts the data word. -/
theorem roundTripThroughTheBlock : Obligations.RoundTripThroughTheBlock := by
  intro s s' t d n x y hcfg h1 hn hd hm hxn hxlen hx ht hyn hylen hy
  refine ⟨_, exec_eq (.decode y) s', ?_⟩
  have hlane : ∀ j, j < n → lane y.sym j = bitSymbol ((hammingEncoder d n (rmin n)).getD j false) := by
    intro j hj
    rw [hy j hj, exec_next ht, State.complete_resp, respondTo_encode_symbols h1 hn hd hm hxn hxlen hx hj]
    rfl
  rw [State.complete_resp, hcfg, respondTo_decode_symbols h1 hn hd (hammingEncoder_length d n) hyn hylen hlane
    (syndrome_hammingEncoder d n) (extract_hammingEncoder hd)]
  rfl

/-- One error in an encoded word is named by the syndrome. -/
theorem syndrome_flipAt_hammingEncoder {n i : Nat} (d : List Bool) (hi : i ∈ positions n) :
    syndrome (flipAt (hammingEncoder d n (rmin n)) i) n (rmin n) = i := by
  rw [syndrome_flipAt (hammingEncoder_length d n) hi, syndrome_hammingEncoder, Nat.zero_xor]

/-- The corrector flips a flipped position back. -/
theorem correctedWord_flipAt {n i : Nat} {c : List Bool} (hc : c.length = n) (hi : i ∈ positions n) :
    correctedWord (flipAt c i) n i = c := by
  rw [correctedWord, if_pos (mem_positions.mp hi), flipAt_flipAt hc hi]

theorem bitAt_flipAt {n i pos : Nat} {c : List Bool} (hc : c.length = n) (hi : i ∈ positions n)
    (hpos : pos ∈ positions n) :
    bitAt (flipAt c i) pos = if pos = i then !bitAt c pos else bitAt c pos := by
  obtain ⟨h1, h2⟩ := mem_positions.mp hi
  split_ifs with h
  · rw [h, bitAt_flipAt_same h1 (hc ▸ h2)]
  · exact bitAt_flipAt_other h1 hpos h

/-- Settles O58: DECODE receives the codeword with position i flipped; the syndrome is i, and the corrector restores the
codeword. -/
theorem singleBitErrorIsCorrectedThroughTheBlock : Obligations.SingleBitErrorIsCorrectedThroughTheBlock := by
  intro s s' t d n i x y hcfg h1 hn hd hi1 hin hm hxn hxlen hx ht hyn hylen hy
  refine ⟨_, exec_eq (.decode y) s', ?_⟩
  have hi : i ∈ positions n := mem_positions.mpr ⟨hi1, hin⟩
  have hc : (hammingEncoder d n (rmin n)).length = n := hammingEncoder_length d n
  have hlane : ∀ j, j < n → lane y.sym j = bitSymbol ((flipAt (hammingEncoder d n (rmin n)) i).getD j false) := by
    intro j hj
    rw [hy j hj, exec_next ht, State.complete_resp, respondTo_encode_symbols h1 hn hd hm hxn hxlen hx hj,
      ← bitAt_flipAt hc hi (mem_positions.mpr ⟨Nat.succ_pos j, hj⟩)]
    rfl
  have hdata : extract (correctedWord (flipAt (hammingEncoder d n (rmin n)) i) n i) n = d := by
    rw [correctedWord_flipAt hc hi, extract_hammingEncoder hd]
  rw [State.complete_resp, hcfg, respondTo_decode_symbols h1 hn hd ((flipAt_length _ i).trans hc) hyn hylen hlane
    (syndrome_flipAt_hammingEncoder d hi) hdata, decide_eq_true (Nat.ne_of_gt hi1),
    decide_eq_false (Nat.not_lt.mpr hin)]

end Sys2Proof.Proofs

/-! Host programs: what a line drives, and how a request line is written (30_encoding.md R51, R52). -/

namespace Sys2Proof.Proofs

open Sys2Proof.Machine

theorem hostEdge_request (nmax : Nat) (p : Phase) (r : Request) (rest : List HostAction) :
    hostEdge nmax p (.request r :: rest) = (Pins.present r, if p = .busy then .request r :: rest else rest) := by
  cases p <;> rfl

/-- A WAIT that is not over drives nothing and stays. -/
theorem hostEdge_wait_of_not_full {nmax : Nat} {p : Phase} {rest : List HostAction} (h : p ≠ .full) :
    hostEdge nmax p (.wait :: rest) = (Pins.idle nmax, .wait :: rest) := by
  rw [hostEdge, respValid_eq, decide_eq_false h]
  rfl

/-- The items of a program are those of its lines in order. -/
theorem hostScript_cons (nmax : Nat) (l : HostLine) (prog : List HostLine) :
    hostScript nmax (l :: prog) = hostScript nmax [l] ++ hostScript nmax prog :=
  List.filterMap_append (l := [l])

/-- Settles O17: one equation of `hostEdge` per item, and of `hostScript` per line. -/
theorem hostLinesDriveThePinsInOrder : Obligations.HostLinesDriveThePinsInOrder := by
  intro nmax p rest
  refine ⟨fun r => hostEdge_request nmax p r rest, fun hp => ?_, rfl, rfl, rfl, rfl, rfl, rfl,
    fun _ _ => rfl, hostScript_cons nmax⟩
  rw [hostEdge_wait_of_not_full hp]
  exact ⟨rfl, rfl, rfl⟩

/-- A hexadecimal digit of either case has its value. -/
theorem hexDigit_of_hexValue {ch : Char} {v : Nat} (h : HexValue ch v) : hexDigit ch = some v := by
  obtain ⟨hv, rfl | rfl⟩ := h
  all_goals
    revert v
    decide

/-- Only the hexadecimal digits have a value: their codes are below 103. -/
theorem hexValue_of_hexDigit {ch : Char} {v : Nat} (h : hexDigit ch = some v) : HexValue ch v := by
  have hcodes : ∀ n < 103, ∀ v ∈ hexDigit (Char.ofNat n), HexValue (Char.ofNat n) v := by decide
  have hlt : ch.toNat < 103 := by
    by_contra hlt
    rw [hexDigit, if_neg (by omega), if_neg (by omega), if_neg (by omega)] at h
    cases h
  rw [← Char.ofNat_toNat ch] at h ⊢
  exact hcodes ch.toNat hlt v h

theorem hexByte_of_hexValue {hi lo : Char} {a b : Nat} (ha : HexValue hi a) (hb : HexValue lo b) :
    hexByte hi lo = some (BitVec.ofNat 8 (16 * a + b)) := by
  rw [hexByte, hexDigit_of_hexValue ha, hexDigit_of_hexValue hb]

theorem hexValues_of_hexByte {hi lo : Char} {c : Symbol} (h : hexByte hi lo = some c) :
    ∃ a b, HexValue hi a ∧ HexValue lo b := by
  rw [hexByte] at h
  split at h
  · next a b ha hb => exact ⟨a, b, hexValue_of_hexDigit ha, hexValue_of_hexDigit hb⟩
  · cases h

/-- A character that starts no escape is its own code. -/
theorem symbolsOf_cons {ch : Char} {rest : List Char} (h : ch ≠ '\\') :
    symbolsOf (ch :: rest) = charCode ch :: symbolsOf rest := by
  rw [symbolsOf]
  rintro hi lo rest' rfl
  exact absurd rfl h

theorem symbolsOf_escape {hi lo : Char} {c : Symbol} (rest : List Char) (h : hexByte hi lo = some c) :
    symbolsOf ('\\' :: 'x' :: hi :: lo :: rest) = c :: symbolsOf rest := by
  rw [symbolsOf, h]

/-- A backslash that starts no escape is a character like any other (log 15). -/
theorem symbolsOf_backslash {rest : List Char}
    (h : ∀ hi lo rest', rest = 'x' :: hi :: lo :: rest' → hexByte hi lo = none) :
    symbolsOf ('\\' :: rest) = charCode '\\' :: symbolsOf rest := by
  by_cases hx : ∃ hi lo rest', rest = 'x' :: hi :: lo :: rest'
  · obtain ⟨hi, lo, rest', rfl⟩ := hx
    rw [symbolsOf, h hi lo rest' rfl]
  · rw [symbolsOf]
    rintro hi lo rest' -
    exact fun hr => hx ⟨hi, lo, rest', hr⟩

theorem symbolsOf_plain {str : List Char} (h : '\\' ∉ str) : symbolsOf str = str.map charCode := by
  induction str with
  | nil => rw [symbolsOf, List.map_nil]
  | cons ch str ih =>
    obtain ⟨hch, hstr⟩ := not_or.mp (mt List.mem_cons.mpr h)
    rw [symbolsOf_cons (Ne.symm hch), ih hstr, List.map_cons]

theorem lane_lanesOf {nmax k : Nat} (str : List Char) (h : k < nmax) :
    lane (lanesOf nmax str) k = (symbolsOf str).getD k 0#8 := by
  simp [lane, lanesOf, h]

/-- Settles O18: one equation of `symbolsOf` for each way a string can begin, and the lanes of the bundle. -/
theorem requestNotationWritesTheBundle : Obligations.RequestNotationWritesTheBundle := by
  refine ⟨fun str => symbolsOf_plain, fun ch rest => symbolsOf_cons, fun hi lo a b rest ha hb => ?_,
    fun rest h => symbolsOf_backslash fun hi lo rest' hr => ?_, fun nmax m n op len str => ?_⟩
  · have hbyte := hexByte_of_hexValue ha hb
    exact ⟨hbyte, symbolsOf_escape rest hbyte⟩
  · cases hbyte : hexByte hi lo with
    | none => rfl
    | some c =>
      obtain ⟨a, b, ha, hb⟩ := hexValues_of_hexByte hbyte
      exact absurd hb (h hi lo a b rest' hr ha)
  · exact ⟨lanesOf nmax str, by simp [lanesOf], fun k => lane_lanesOf str, rfl, rfl, rfl, rfl⟩

end Sys2Proof.Proofs
